-- ==== Sys2Proof/Word.lean ====
section
/-!
DEFINITION. The 32-bit word of the engine and its two readings (00_scope.md rules R8, R9).
-/

namespace Sys2Proof

/-- Every register, buffer entry and bus datum is 32 bits wide (R7, R21). -/
abbrev Word := BitVec 32

/-- One byte lane of a word (R65). -/
abbrev Byte := BitVec 8

/-- `u32(w)` of R9. -/
abbrev u32 (w : Word) : Nat := w.toNat

/-- `s32(w)` of R9: two's complement. -/
abbrev s32 (w : Word) : Int := w.toInt

/-- `word(v)` of R9: the word whose `u32` is `v mod 2^32`. -/
abbrev word (v : Int) : Word := BitVec.ofInt 32 v

/-- `INT32(v)` of R9. -/
abbrev INT32 (v : Int) : Prop := -(2 ^ 31) ≤ v ∧ v ≤ 2 ^ 31 - 1

end Sys2Proof
end

