-- ==== Sys2Proof/Config.lean ====
section
/-!
DEFINITION. What an implementation or the platform fixes (00_scope.md rule R7), and the free values.
-/

namespace Sys2Proof

/-- The two implementation parameters that R7 says a model takes as arguments. -/
structure Params where
  /-- `BASE`, the byte address of the register window: a multiple of 4096 (R7, R60). -/
  base : Nat
  /-- `BUF_DEPTH`, entries in each of IN_BUF and OUT_BUF: even, 2 ≤ BUF_DEPTH ≤ 256 (R7). -/
  bufDepth : Nat
deriving DecidableEq, Repr

namespace Config

/-- The window's size in bytes: offsets 0x000 to 0xFFF (R7, R60). -/
abbrev windowBytes : Nat := 4096

/-- BUF_DEPTH's default (R7). -/
def defaultBufDepth : Nat := 256

/-- The constant that ID reads: ASCII "CRYP" (R22). -/
def idValue : Word := 0x43525950#32

/-- The alphabet size: A = 0 .. Z = 25 (R7, R140). -/
def alphabetSize : Nat := 26

/-- The page of the register window in `State.reset`: BASE is OPEN (R7), so nothing is known of this
number. DESIGN CHOICE: BASE is written as 4096 times it (log 4). -/
opaque basePage : Nat

/-- FREE VALUE: the `n`-th unspecified 32-bit value the machine draws: a buffer entry after reset (R231),
or a result read while the engine is busy (R73). Nothing constrains it (log 5, log 6). -/
opaque freeWord : Nat → Word

/-- FREE VALUE: what variable number `n` of the host agent with seed `k` holds before the host assigns it; the notation
of R105 gives no value (log 14). -/
opaque freeHostWord : Nat → Nat → Word

end Config

end Sys2Proof
end

