-- ==== Sys2Proof/Fields.lean ====
section
/-!
DEFINITION. The raw fields of a command word (30_encoding.md rules R90 to R93) and the source form that S names.
-/

namespace Sys2Proof

/-- What S, bit 8 of the command word, selects for HILL_DEC (R92). -/
inductive Source where
  /-- S = 0: the entries of IN_BUF are cipher codes. -/
  | codes
  /-- S = 1: the entries of IN_BUF are cipher text letters. -/
  | text
deriving DecidableEq, Repr

/-- The fields of a command word (R90): OPC = bits 7:0, S = bit 8, RSV = bits 31:9. -/
structure CmdFields where
  opc : BitVec 8
  s   : Bool
  rsv : BitVec 23
deriving DecidableEq, Repr

end Sys2Proof
end

