-- ==== Sys2Proof/Syntax.lean ====
section
/-!
DEFINITION. The engine's commands: one constructor per row of spec/opcode_table.json (30_encoding.md rule R95).
-/

namespace Sys2Proof

/-- A command. The command word has no immediates (R94); only HILL_DEC has an operand in the word, its
source form S (R92). -/
inductive Instr where
  /-- MODINV (R124). -/
  | modinv
  /-- MODPOW (R125). -/
  | modpow
  /-- TXT2NUM (R142). -/
  | txt2num
  /-- NUM2TXT (R143). -/
  | num2txt
  /-- HILL_ENC (R155). -/
  | hillEnc
  /-- DET (R156). -/
  | det
  /-- MATINV26 (R157). -/
  | matinv26
  /-- HILL_DEC (R158); `s` is the S bit. -/
  | hillDec (s : Source)
  /-- RSA_KEYGEN (R181). -/
  | rsaKeygen
  /-- RSA_ENC (R182). -/
  | rsaEnc
  /-- RSA_DEC (R183). -/
  | rsaDec
deriving DecidableEq, Repr

end Sys2Proof
end

