-- ==== Sys2Proof/HostSyntax.lean ====
section
/-!
DEFINITION. The names of the register window (20_memory.md rule R61) and the host notation
(30_encoding.md rules R105 and R106), as syntax.
-/

namespace Sys2Proof

/-- A word of the register window (R61). -/
inductive Loc where
  | id
  | cap
  | ctrl
  | status
  | cmd
  | inLen
  | outLen
  | keyLen
  /-- OP0, OP1, OP2. -/
  | op (k : Fin 3)
  /-- KEY0 .. KEY3. -/
  | key (k : Fin 4)
  /-- RES0 .. RES5. -/
  | res (k : Fin 6)
  /-- IN[i]. -/
  | inBuf (i : Nat)
  /-- OUT[i]. -/
  | outBuf (i : Nat)
  /-- A reserved offset: reads 0, ignores writes (R66). -/
  | reserved (off : Nat)
deriving DecidableEq, Repr

/-- A host-local variable (R105): `t`, a numbered variable, or the parts of a READBUF result (R106). -/
inductive Var where
  /-- The polling variable of WAIT and CHECK. -/
  | t
  /-- `r0`, `r1`, `c`, `n`, ...: any other variable, by number. -/
  | r (n : Nat)
  /-- `r.len` of READBUF result number `n`. -/
  | len (n : Nat)
  /-- `r[i]` of READBUF result number `n`. -/
  | elem (n i : Nat)
deriving DecidableEq, Repr

/-- A label (R105): the program's own, or one that the expansion of a pseudo-instruction made. -/
inductive Label where
  | user (n : Nat)
  | fresh (n : Nat)
deriving DecidableEq, Repr

/-- The data of a `WR` line: an immediate or a host variable (R105). -/
inductive HostVal where
  | imm (w : Word)
  | var (x : Var)
deriving DecidableEq, Repr

/-- One line of a host program (R105). -/
inductive HostLine where
  /-- `WR REG, v`. -/
  | wr (reg : Loc) (v : HostVal)
  /-- `RD REG -> x`. -/
  | rd (reg : Loc) (x : Var)
  /-- `BSET x, b, L`: branch to L if bit b of x is 1. -/
  | bset (x : Var) (b : Fin 32) (l : Label)
  /-- `BCLR x, b, L`: branch to L if bit b of x is 0. -/
  | bclr (x : Var) (b : Fin 32) (l : Label)
  /-- `BNE x, imm, L`: branch to L if x is not imm. -/
  | bne (x : Var) (imm : Word) (l : Label)
  /-- `JMP L`. -/
  | jmp (l : Label)
  /-- `HALT`. -/
  | halt
  /-- `L:`. -/
  | label (l : Label)
  /-- The reads of `READBUF -> r`, result number `n`: `RD OUT[i] -> r[i]` for i = 0 .. r.len - 1, one read a turn. MODEL's
  own line: r.len is known at run time only, so no fixed list of `RD` lines stands for them (R106, log 15). -/
  | rdElems (n : Nat)
deriving DecidableEq, Repr

/-- A line of a source program: a plain line or a pseudo-instruction (R106). -/
inductive Pseudo where
  | line (l : HostLine)
  /-- `WAIT`. -/
  | wait
  /-- `RUN M`, the mnemonic given as the command it names. -/
  | run (i : Instr)
  /-- `LOADBUF [v0, ..., vk-1]`. -/
  | loadBuf (vs : List HostVal)
  /-- `LOADBUF "ABC"`: the ASCII byte values of the string. -/
  | loadText (s : String)
  /-- `SETKEY [a, b, c, d]`. -/
  | setKey (a b c d : HostVal)
  /-- `READBUF -> r`, result number `n`. -/
  | readBuf (n : Nat)
  /-- `CHECK x`. -/
  | check (x : Var)
deriving DecidableEq, Repr

end Sys2Proof
end

