-- ==== Sys2Proof/WellFormed.lean ====
section
/-!
DEFINITION. The checks a term must pass: command fields (30_encoding.md rules R91 to R93), parameters
(00_scope.md rule R7), names of buffer entries (20_memory.md rule R61) and labels of a host program (R105).
-/

namespace Sys2Proof

/-- R93: RSV must be zero. -/
def CmdFields.rsvLegal (f : CmdFields) : Bool := f.rsv == 0

/-- R91: the defined opcodes are 0x01 to 0x0B. -/
def CmdFields.opcLegal (f : CmdFields) : Bool := 1 ≤ f.opc.toNat && f.opc.toNat ≤ 0x0B

/-- R92: S = 1 is legal with HILL_DEC (OPC = 0x08) only. -/
def CmdFields.sLegal (f : CmdFields) : Bool := !f.s || f.opc == 0x08#8

/-- The fields of a legal command word (R91 to R93, R96). -/
def CmdFields.wellFormed (f : CmdFields) : Bool := f.rsvLegal && f.opcLegal && f.sLegal

/-- Every command term is well formed: its only operand is the source form, and `Source` holds exactly the two
values of S that R92 allows. An ill-formed command exists only as raw fields (`CmdFields.wellFormed`). -/
def Instr.wellFormed : Instr → Bool
  | .modinv    => true
  | .modpow    => true
  | .txt2num   => true
  | .num2txt   => true
  | .hillEnc   => true
  | .det       => true
  | .matinv26  => true
  | .hillDec _ => true
  | .rsaKeygen => true
  | .rsaEnc    => true
  | .rsaDec    => true

/-- R7, R60: BASE is a multiple of 4096. -/
def Params.baseLegal (p : Params) : Bool := p.base % Config.windowBytes == 0

/-- R7: BUF_DEPTH is even and 2 ≤ BUF_DEPTH ≤ 256. -/
def Params.depthLegal (p : Params) : Bool :=
  p.bufDepth % 2 == 0 && 2 ≤ p.bufDepth && p.bufDepth ≤ 256

/-- Legal implementation parameters (R7). -/
def Params.wellFormed (p : Params) : Bool := p.baseLegal && p.depthLegal

/-- A name the notation may use with BUF_DEPTH = `depth`: a buffer index lies in the buffer, and a reserved
name is an aligned offset of the window (R61). -/
def Loc.wellFormed (depth : Nat) : Loc → Bool
  | .inBuf i      => decide (i < depth)
  | .outBuf i     => decide (i < depth)
  | .reserved off => decide (off < Config.windowBytes) && off % 4 == 0
  | _             => true

/-- The label a line branches to, if it branches. -/
def HostLine.target : HostLine → Option Label
  | .bset _ _ l => some l
  | .bclr _ _ l => some l
  | .bne _ _ l  => some l
  | .jmp l      => some l
  | _           => none

/-- The window name a line uses, if it makes a bus access. -/
def HostLine.loc : HostLine → Option Loc
  | .wr reg _ => some reg
  | .rd reg _ => some reg
  | _         => none

/-- A host program is well formed when every branch target is a label of it and every name is well formed (R105). -/
def hostProgramWellFormed (depth : Nat) (prog : List HostLine) : Bool :=
  prog.all fun line =>
    (match line.target with
      | some l => prog.contains (.label l)
      | none => true) &&
    (match line.loc with
      | some r => r.wellFormed depth
      | none => true)

end Sys2Proof
end

