-- ==== Sys2Proof/Decode.lean ====
section
/-!
DEFINITION. The decoder and the encoder of the command word (30_encoding.md rules R90 to R98), and the byte lanes of
a word (20_memory.md rule R65).
-/

namespace Sys2Proof

/-- Why a command word is ILLEGAL: the three causes of R211. -/
inductive Illegal where
  /-- A reserved bit, 31:9, is set (R93). -/
  | reservedBits
  /-- OPC is 0x00 or above 0x0B (R91). -/
  | undefinedOpcode
  /-- S = 1 with any OPC but HILL_DEC's (R92). -/
  | strayS
  /-- Fewer than four bytes were given: not a command word at all (R90). -/
  | tooShort
deriving DecidableEq, Repr

/-- The fields of a command word (R90). -/
def fieldsOf (w : Word) : CmdFields :=
  { opc := w.extractLsb' 0 8, s := w.getLsbD 8, rsv := w.extractLsb' 9 23 }

/-- The command word with these fields (R90). -/
def CmdFields.toWord (f : CmdFields) : Word := f.rsv ++ BitVec.ofBool f.s ++ f.opc

/-- The opcode map (R95), from OPC and S to the command; S is read for HILL_DEC only (R92). -/
def commandOf (opc : Nat) (s : Bool) : Option Instr :=
  match opc with
  | 0x01 => some .modinv
  | 0x02 => some .modpow
  | 0x03 => some .txt2num
  | 0x04 => some .num2txt
  | 0x05 => some .hillEnc
  | 0x06 => some .det
  | 0x07 => some .matinv26
  | 0x08 => some (.hillDec (if s then .text else .codes))
  | 0x09 => some .rsaKeygen
  | 0x0A => some .rsaEnc
  | 0x0B => some .rsaDec
  | _    => none

/-- `decode` of R96, total on all words, its three refusals named. -/
def decode (w : Word) : Except Illegal Instr :=
  let f := fieldsOf w
  if f.rsv ≠ 0 then .error .reservedBits
  else if f.opc.toNat = 0 ∨ 0x0B < f.opc.toNat then .error .undefinedOpcode
  else if f.s = true ∧ f.opc.toNat ≠ 0x08 then .error .strayS
  else
    match commandOf f.opc.toNat f.s with
    | some i => .ok i
    | none => .error .undefinedOpcode

/-- The fields that the opcode map gives a command (R95). -/
def Instr.fields : Instr → CmdFields
  | .modinv         => ⟨0x01#8, false, 0⟩
  | .modpow         => ⟨0x02#8, false, 0⟩
  | .txt2num        => ⟨0x03#8, false, 0⟩
  | .num2txt        => ⟨0x04#8, false, 0⟩
  | .hillEnc        => ⟨0x05#8, false, 0⟩
  | .det            => ⟨0x06#8, false, 0⟩
  | .matinv26       => ⟨0x07#8, false, 0⟩
  | .hillDec .codes => ⟨0x08#8, false, 0⟩
  | .hillDec .text  => ⟨0x08#8, true, 0⟩
  | .rsaKeygen      => ⟨0x09#8, false, 0⟩
  | .rsaEnc         => ⟨0x0A#8, false, 0⟩
  | .rsaDec         => ⟨0x0B#8, false, 0⟩

/-- The command word of a command: the column "CMD word" of R95. -/
def encode (i : Instr) : Word := i.fields.toWord

/-- A word from its byte lanes, little-endian: the byte at offset +0 is bits 7:0 (R65). -/
def wordOfBytes (b0 b1 b2 b3 : Byte) : Word := b3 ++ b2 ++ b1 ++ b0

/-- The byte lanes of a word, offset +0 first (R65). -/
def bytesOfWord (w : Word) : List Byte :=
  [w.extractLsb' 0 8, w.extractLsb' 8 8, w.extractLsb' 16 8, w.extractLsb' 24 8]

/-- The command that a byte sequence begins with, and the bytes after it: a command word is four bytes (R90, R98)
in the lane order of R65. -/
def decodeBytes : List Byte → Except Illegal (Instr × List Byte)
  | b0 :: b1 :: b2 :: b3 :: rest =>
    match decode (wordOfBytes b0 b1 b2 b3) with
    | .ok i => .ok (i, rest)
    | .error e => .error e
  | _ => .error .tooShort

/-- The word that an instruction of `nbits` table bits `w` puts into CMD: bit 0 is the least significant bit, and
every bit from `nbits` up is 0 (R8, R90). -/
def tableWord (nbits w : Nat) : Word := BitVec.ofNat 32 (w % 2 ^ nbits)

/-- The command that the decoder reads from the table bits `w`: the word's bytes laid out in lane order and decoded. -/
def decodeTableWord (nbits w : Nat) : Option Instr :=
  match decodeBytes (bytesOfWord (tableWord nbits w)) with
  | .ok (i, _) => some i
  | .error _ => none

end Sys2Proof
end

