-- ==== Sys2Proof/Machine/State.lean ====
section
/-!
DEFINITION. The architectural state (10_state.md rules R20 to R47), the environment it stands in (hosts, bus order, reset
input), the reasons a step can stop, and the state after reset (70_reset_and_hazards.md rules R230, R231).
-/

namespace Sys2Proof.Machine

/-- CTRL.ODDPOL: all four values are legal (R25). -/
inductive OddPolicy where
  /-- 0: encrypt pads, decrypt drops. -/
  | reference
  /-- 1: both paths pad. -/
  | pad
  /-- 2: both paths drop the trailing element. -/
  | truncate
  /-- 3: both paths fail with ODD_LENGTH. -/
  | reject
deriving DecidableEq, Repr

/-- CTRL by its fields (R24). The reserved bits read 0 and ignore writes, so nothing stores them (log 11). -/
structure Ctrl where
  oddpol : OddPolicy
  ie     : Bool
  /-- WARL, legal 0..25 (R27). -/
  filler : BitVec 5
deriving DecidableEq, Repr

/-- The error kinds of R201. -/
inductive CmdError where
  | invalidKeyShape
  | nonInvertibleKey
  | nonInvertibleExponent
  | nonInvertible
  | badModulus
  | negativeExponent
  | oddLength
  | length
  | range
  | illegalCmd
deriving DecidableEq, Repr

/-- What STATUS.ERR records: OK, or the error the command raised (R32, R201). -/
inductive Completion where
  | ok
  | err (e : CmdError)
deriving DecidableEq, Repr

/-- STATUS by its fields (R28). BUSY is the sequencer phase (R43). The reserved bits read 0 (log 11). -/
structure Status where
  busy : Bool
  done : Bool
  werr : Bool
  err  : Completion
deriving DecidableEq, Repr

/-- The two buffers, each BUF_DEPTH words (R41, R42): the machine's only memory. The smallest unit an access can
address is the word (R62), so an entry is a word (log 22). -/
structure Memory where
  inBuf  : List Word
  outBuf : List Word
deriving DecidableEq, Repr

/-- The one canonical form of the buffers: exactly BUF_DEPTH entries each (R41, R42). -/
def Memory.wf (depth : Nat) (m : Memory) : Bool :=
  m.inBuf.length == depth && m.outBuf.length == depth

/-- One host access as it reaches the port: `MemRead(addr, size)` or `MemWrite(addr, size, data)` of R11, with any
width and alignment. The data of an access that is not 32 bits wide is never used (R62). -/
structure Access where
  addr : Nat
  /-- Bytes per transfer. A burst that splits a word has a transfer size other than 4 (log 9). -/
  size : Nat
  /-- The data written; `none` is a read. -/
  data : Option Word
deriving DecidableEq, Repr

/-- The port's answer to a host access. -/
inductive Reply where
  /-- A read's data. -/
  | data (w : Word)
  /-- A write's normal response, also where the write is ignored (R67). -/
  | ack
  /-- `raise BusError(addr)`: the platform's error response, with no data (R64, U4). -/
  | busError (addr : Nat)
deriving DecidableEq, Repr

/-- A host that runs a program in the notation of R105. It is an agent outside the engine (R6). -/
structure HostAgent where
  prog : List HostLine
  /-- The index of its next line; past the end the host has nothing to do. -/
  pc   : Nat
  /-- The variables it has assigned, newest first. -/
  vars : List (Var × Word)
  /-- Which free values its unassigned variables hold (log 14). -/
  seed : Nat
  /-- How many reads of the READBUF in progress are done; 0 at its start and after its end (R106, log 15). -/
  reads : Nat
deriving DecidableEq, Repr

/-- One move of the total order of R74: who moves next (log 1). -/
inductive Turn where
  /-- The engine may take its step (R100). -/
  | engine
  /-- A bus master makes one access (R71). -/
  | access (a : Access)
  /-- Host agent number `k` executes its next line (R105). -/
  | host (k : Nat)
  /-- The platform asserts reset (R230). -/
  | resetAssert
  /-- The platform releases reset (R232). -/
  | resetRelease
deriving DecidableEq, Repr

/-- The machine. The first fields are the registers and buffers of R20; `resetAsserted` is the reset input of R230;
`reply`, `draws`, `hosts` and `turns` are the model's own (log 1, log 5, log 20). ID is hard-wired and CAP is read
from `params` (R22, R23); `irq` is computed (R45). -/
structure State where
  /-- BASE and BUF_DEPTH (R7): no step changes them. -/
  params : Params
  /-- CTRL (R24). -/
  ctrl   : Ctrl
  /-- STATUS (R28). -/
  status : Status
  /-- CMD (R33). -/
  cmd    : Word
  /-- IN_LEN (R34). -/
  inLen  : Word
  /-- OUT_LEN (R35). -/
  outLen : Word
  /-- KEY_LEN (R36). -/
  keyLen : Word
  /-- OP0 (R37). -/
  op0    : Word
  /-- OP1 (R37). -/
  op1    : Word
  /-- OP2 (R37). -/
  op2    : Word
  /-- KEY0 = a = k00 (R38). -/
  key0   : Word
  /-- KEY1 = b = k01 (R38). -/
  key1   : Word
  /-- KEY2 = c = k10 (R38). -/
  key2   : Word
  /-- KEY3 = d = k11 (R38). -/
  key3   : Word
  /-- RES0 (R40). -/
  res0   : Word
  /-- RES1 (R40). -/
  res1   : Word
  /-- RES2 (R40). -/
  res2   : Word
  /-- RES3 (R40). -/
  res3   : Word
  /-- RES4 (R40). -/
  res4   : Word
  /-- RES5 (R40). -/
  res5   : Word
  /-- IN_BUF and OUT_BUF (R41, R42). -/
  mem    : Memory
  /-- The reset input's level (R230, R232). -/
  resetAsserted : Bool
  /-- MODEL's own: the port's answer to the last host access. -/
  reply  : Option Reply
  /-- MODEL's own: how many free values have been drawn (log 5, log 6). -/
  draws  : Nat
  /-- MODEL's own: the host agents (R6, R105). -/
  hosts  : List HostAgent
  /-- MODEL's own: the coming moves, in the total order of R74; when it is empty the engine moves (log 1). -/
  turns  : List Turn
deriving DecidableEq, Repr

/-- Why the machine stops. No rule of the spec stops the engine: command errors are completion codes (R200) and a bus
error is a reply (R64). -/
inductive Fault where
  /-- Raised by a host access whose address is outside the window: it does not reach the engine and the spec says
  nothing of it (R64, R60; log 7). Safe: no next state is claimed. -/
  | outsideWindow (addr : Nat)
deriving DecidableEq, Repr

/-- Why the model gives a move no meaning. -/
inductive Refusal where
  /-- Raised by `exec` for a command that has no meaning yet. Safe: no next state is claimed. -/
  | notModelled (mnemonic : String)
  /-- Raised by a host access while reset is asserted: not defined, and "a model refuses them" (R232). Safe. -/
  | accessDuringReset (addr : Nat)
  /-- Raised by a host line that branches to a label its program does not hold: the notation of R105 gives such a
  line no meaning (log 14). Safe. -/
  | noSuchLabel (l : Label)
deriving DecidableEq, Repr

/-- What one move answers. -/
abbrev Answer := Host.Outcome State Fault Refusal

/-- `n` free values, from draw number `k` on. -/
def freeWords (k n : Nat) : List Word := (List.range n).map fun i => Config.freeWord (k + i)

/-- The state right after reset of an engine with parameters `p` that has drawn `k` free values so far (R47, R230,
R231): every register at its reset value, every buffer entry a new free value, reset released, nobody on the bus. -/
def State.afterReset (p : Params) (k : Nat) : State where
  params := p
  ctrl   := { oddpol := .reference, ie := false, filler := 23#5 }
  status := { busy := false, done := false, werr := false, err := .ok }
  cmd    := 0#32
  inLen  := 0#32
  outLen := 0#32
  keyLen := 0#32
  op0    := 0#32
  op1    := 0#32
  op2    := 0#32
  key0   := 0#32
  key1   := 0#32
  key2   := 0#32
  key3   := 0#32
  res0   := 0#32
  res1   := 0#32
  res2   := 0#32
  res3   := 0#32
  res4   := 0#32
  res5   := 0#32
  mem    := { inBuf := freeWords k p.bufDepth, outBuf := freeWords (k + p.bufDepth) p.bufDepth }
  resetAsserted := false
  reply  := none
  draws  := k + 2 * p.bufDepth
  hosts  := []
  turns  := []

/-- The parameters of `State.reset`: BUF_DEPTH has R7's default; BASE is open (log 4). -/
def State.resetParams : Params :=
  { base := Config.windowBytes * Config.basePage, bufDepth := Config.defaultBufDepth }

/-- The machine right after reset (R47, R230). -/
def State.reset : State := State.afterReset State.resetParams 0

end Sys2Proof.Machine
end

