-- ==== Sys2Proof/Machine/Flags.lean ====
section
/-!
DEFINITION. The fields of CTRL and STATUS as the bus sees them, the error codes, the changes of STATUS, and `irq`
(10_state.md rules R24 to R32, R45; 60_exceptions.md rules R201, R215). The engine has no condition codes (R46).
-/

namespace Sys2Proof.Machine

/-- The two bits of CTRL.ODDPOL (R25). -/
def OddPolicy.bits : OddPolicy → BitVec 2
  | .reference => 0#2
  | .pad       => 1#2
  | .truncate  => 2#2
  | .reject    => 3#2

/-- The policy that two bits select (R25). -/
def OddPolicy.ofBits (b : BitVec 2) : OddPolicy :=
  match b.toNat with
  | 0 => .reference
  | 1 => .pad
  | 2 => .truncate
  | _ => .reject

/-- CTRL as it reads (R24): ODDPOL 1:0, IE 2, FILLER 12:8, the rest 0. -/
def Ctrl.toWord (c : Ctrl) : Word :=
  0#19 ++ c.filler ++ 0#5 ++ BitVec.ofBool c.ie ++ c.oddpol.bits

/-- An idle write of `v` to CTRL (R24, R27): an illegal FILLER keeps the old one, the other fields are written. -/
def Ctrl.write (c : Ctrl) (v : Word) : Ctrl :=
  { oddpol := OddPolicy.ofBits (v.extractLsb' 0 2)
    ie     := v.getLsbD 2
    filler :=
      if (v.extractLsb' 8 5).toNat < Config.alphabetSize then v.extractLsb' 8 5 else c.filler }

/-- The error codes 0x01 to 0x0A (R201). -/
def CmdError.code : CmdError → BitVec 8
  | .invalidKeyShape       => 0x01#8
  | .nonInvertibleKey      => 0x02#8
  | .nonInvertibleExponent => 0x03#8
  | .nonInvertible         => 0x04#8
  | .badModulus            => 0x05#8
  | .negativeExponent      => 0x06#8
  | .oddLength             => 0x07#8
  | .length                => 0x08#8
  | .range                 => 0x09#8
  | .illegalCmd            => 0x0A#8

/-- The value of STATUS.ERR (R32, R201): 0 is OK. -/
def Completion.code : Completion → BitVec 8
  | .ok    => 0x00#8
  | .err e => e.code

/-- STATUS as it reads (R28): BUSY 0, DONE 1, WERR 2, ERR 15:8, the rest 0. -/
def Status.toWord (t : Status) : Word :=
  0#16 ++ t.err.code ++ 0#5 ++ BitVec.ofBool t.werr ++ BitVec.ofBool t.done ++ BitVec.ofBool t.busy

/-- A write of `v` to STATUS, in either phase: write 1 to clear DONE and WERR (R30, R31, R72). -/
def Status.write (t : Status) (v : Word) : Status :=
  { t with done := t.done && !v.getLsbD 1, werr := t.werr && !v.getLsbD 2 }

/-- STATUS after a command is issued (R99). -/
def Status.issued (t : Status) : Status :=
  { t with busy := true, done := false, err := .ok }

/-- STATUS after a command completes with outcome `c` (R103): WERR is unchanged. -/
def Status.completed (t : Status) (c : Completion) : Status :=
  { t with busy := false, done := true, err := c }

/-- STATUS after a write was dropped because the engine is busy (R31, R72). -/
def Status.dropped (t : Status) : Status :=
  { t with werr := true }

/-- The level-sensitive output `irq = CTRL.IE AND STATUS.DONE` (R45, R215). -/
def State.irq (s : State) : Bool := s.ctrl.ie && s.status.done

end Sys2Proof.Machine
end

