-- ==== Sys2Proof/Machine/Operands.lean ====
section
/-!
DEFINITION. Every operand form of 30_encoding.md rule R94: scalar, length, text entry, code entry, configuration.
-/

namespace Sys2Proof.Machine

/-- A 2×2 matrix of integers, row by row (R150). -/
structure Mat2 where
  m00 : Int
  m01 : Int
  m10 : Int
  m11 : Int
deriving DecidableEq, Repr

/-- The check every buffer command makes first: LENGTH unless u32(IN_LEN) ≤ BUF_DEPTH (R34, R209). -/
def State.lengthBad (s : State) : Bool := decide (s.params.bufDepth < u32 s.inLen)

/-- The words `IN[0], ..., IN[k-1]` with k = u32(IN_LEN) (R34). -/
def State.inWords (s : State) : List Word := s.mem.inBuf.take (u32 s.inLen)

/-- A buffer word as a text entry: bits 7:0, the others ignored (R41, R94). -/
def textEntry (w : Word) : Byte := w.extractLsb' 0 8

/-- The characters of `IN[0..k-1]` in text form (R94). -/
def State.inText (s : State) : List Byte := s.inWords.map textEntry

/-- The values of `IN[0..k-1]` in code or value form: `s32` of the whole word (R94). -/
def State.inCodes (s : State) : List Int := s.inWords.map s32

/-- The key matrix of KEY0..KEY3, each `s32` (R38, R150). -/
def State.keyMatrix (s : State) : Mat2 :=
  { m00 := s32 s.key0, m01 := s32 s.key1, m10 := s32 s.key2, m11 := s32 s.key3 }

/-- `BuildKeyMatrix()` of R150: the key-shape check, then the matrix. A singular matrix is accepted. -/
def buildKeyMatrix (s : State) : Except CmdError Mat2 :=
  if u32 s.keyLen ≠ 4 then .error .invalidKeyShape else .ok s.keyMatrix

/-- CTRL.FILLER as an unsigned field (R94). -/
def State.filler (s : State) : Int := (s.ctrl.filler.toNat : Int)

end Sys2Proof.Machine
end

