-- ==== Sys2Proof/Machine/Ops.lean ====
section
/-!
DEFINITION. The shared operations: result writes, issue, commit and completion (30_encoding.md rules R99 to R103), the
register window (20_memory.md rules R60 to R73), reset (70_reset_and_hazards.md rules R230 to R232).

The engine has no trap entry and no trap return (60_exceptions.md rules R217, R218): an error is the completion code that
`complete` records, and the host acknowledges it with `acknowledge` or by issuing the next command.
-/

namespace Sys2Proof.Machine

/-! ### Results of a command -/

/-- One of RES0..RES5 (R40). -/
inductive ResReg where
  | res0
  | res1
  | res2
  | res3
  | res4
  | res5
deriving DecidableEq, Repr

/-- The set W of writes of a command that succeeds (R100, R107). -/
inductive Writes where
  /-- A scalar command writes RES registers. -/
  | regs (ws : List (ResReg × Word))
  /-- A buffer command of output length L writes OUT[0..L-1] and OUT_LEN <- L (R42). -/
  | buffer (ws : List Word)
deriving DecidableEq, Repr

/-- What `Exec_opc` returns (R100): `Ok(W)` or `Err(c)`. -/
abbrev CmdResult := Except CmdError Writes

/-- `x[RESk] <- w`. -/
def State.setRes (s : State) (r : ResReg) (w : Word) : State :=
  match r with
  | .res0 => { s with res0 := w }
  | .res1 => { s with res1 := w }
  | .res2 => { s with res2 := w }
  | .res3 => { s with res3 := w }
  | .res4 => { s with res4 := w }
  | .res5 => { s with res5 := w }

/-- The RES writes of W, in order. -/
def State.setRegs (s : State) : List (ResReg × Word) → State
  | [] => s
  | (r, w) :: ws => (s.setRes r w).setRegs ws

/-- OUT_BUF after `OUT[0..L-1] <- ws`, where L is the length of ws: `OUT[L..]` is unchanged (R42). -/
def Memory.writeOut (m : Memory) (ws : List Word) : Memory :=
  { m with outBuf := ws.take m.outBuf.length ++ m.outBuf.drop ws.length }

/-- IN_BUF after `IN[i] <- w` (R68). -/
def Memory.writeIn (m : Memory) (i : Nat) (w : Word) : Memory :=
  { m with inBuf := m.inBuf.set i w }

/-- `IN[i]`; past the buffer the window reads 0 (R41). -/
def Memory.readIn (m : Memory) (i : Nat) : Word := m.inBuf.getD i 0#32

/-- `OUT[i]`; past the buffer the window reads 0 (R42). -/
def Memory.readOut (m : Memory) (i : Nat) : Word := m.outBuf.getD i 0#32

/-- The output of a buffer command: OUT[0..L-1] <- ws and OUT_LEN <- L (R35, R42). -/
def State.setOutput (s : State) (ws : List Word) : State :=
  { s with mem := s.mem.writeOut ws, outLen := word ws.length }

/-- Apply every write in W, and nothing else (R101). -/
def State.apply (s : State) : Writes → State
  | .regs ws   => s.setRegs ws
  | .buffer ws => s.setOutput ws

/-- Completion (R103): BUSY <- 0, DONE <- 1, ERR <- code, WERR unchanged. -/
def complete (c : Completion) (s : State) : State :=
  { s with status := s.status.completed c }

/-- The commit of a command's outcome (R100 to R103): on success every write of W, on error none, and then completion,
in one atomic step. -/
def commit (r : CmdResult) (s : State) : State :=
  match r with
  | .ok w    => complete .ok (s.apply w)
  | .error e => complete (.err e) s

/-- Issue (R99): a CMD write accepted while idle. It does not check the word. -/
def issue (v : Word) (s : State) : State :=
  { s with cmd := v, status := s.status.issued }

/-- A write of `v` to STATUS (R30, R31): the acknowledgement of a completion is `v` with bit 1 set (R218). -/
def acknowledge (v : Word) (s : State) : State :=
  { s with status := s.status.write v }

/-! ### The register window -/

/-- The word of the window at an aligned offset, with BUF_DEPTH = `depth` (R61). -/
def locate (depth off : Nat) : Loc :=
  match off with
  | 0x000 => .id
  | 0x004 => .cap
  | 0x008 => .ctrl
  | 0x00C => .status
  | 0x010 => .cmd
  | 0x014 => .inLen
  | 0x018 => .outLen
  | 0x01C => .keyLen
  | 0x020 => .op 0
  | 0x024 => .op 1
  | 0x028 => .op 2
  | 0x030 => .key 0
  | 0x034 => .key 1
  | 0x038 => .key 2
  | 0x03C => .key 3
  | 0x040 => .res 0
  | 0x044 => .res 1
  | 0x048 => .res 2
  | 0x04C => .res 3
  | 0x050 => .res 4
  | 0x054 => .res 5
  | off   =>
    if 0x400 ≤ off ∧ off < 0x400 + 4 * depth then .inBuf ((off - 0x400) / 4)
    else if 0x800 ≤ off ∧ off < 0x800 + 4 * depth then .outBuf ((off - 0x800) / 4)
    else .reserved off

/-- The offset a name stands for (R61, R105). -/
def offsetOf : Loc → Nat
  | .id           => 0x000
  | .cap          => 0x004
  | .ctrl         => 0x008
  | .status       => 0x00C
  | .cmd          => 0x010
  | .inLen        => 0x014
  | .outLen       => 0x018
  | .keyLen       => 0x01C
  | .op k         => 0x020 + 4 * k.val
  | .key k        => 0x030 + 4 * k.val
  | .res k        => 0x040 + 4 * k.val
  | .inBuf i      => 0x400 + 4 * i
  | .outBuf i     => 0x800 + 4 * i
  | .reserved off => off

/-- The words the chip may be writing during a command: OUT_LEN, RES0..RES5 and OUT[i] (R73). -/
def isResult : Loc → Bool
  | .outLen   => true
  | .res _    => true
  | .outBuf _ => true
  | _         => false

/-- The word that a location holds (R22 to R42, R66). -/
def State.wordAt (s : State) : Loc → Word
  | .id         => Config.idValue
  | .cap        => 0#16 ++ BitVec.ofNat 16 s.params.bufDepth
  | .ctrl       => s.ctrl.toWord
  | .status     => s.status.toWord
  | .cmd        => s.cmd
  | .inLen      => s.inLen
  | .outLen     => s.outLen
  | .keyLen     => s.keyLen
  | .op 0       => s.op0
  | .op 1       => s.op1
  | .op 2       => s.op2
  | .key 0      => s.key0
  | .key 1      => s.key1
  | .key 2      => s.key2
  | .key 3      => s.key3
  | .res 0      => s.res0
  | .res 1      => s.res1
  | .res 2      => s.res2
  | .res 3      => s.res3
  | .res 4      => s.res4
  | .res 5      => s.res5
  | .inBuf i    => s.mem.readIn i
  | .outBuf i   => s.mem.readOut i
  | .reserved _ => 0#32

/-- A read of a location: the data, and the state after it. A result location read while busy gives a free value
(R73, log 6); every other read gives the word held and changes nothing (R70). -/
def readLoc (l : Loc) (s : State) : Word × State :=
  if s.status.busy = true ∧ isResult l = true then
    (Config.freeWord s.draws, { s with draws := s.draws + 1 })
  else (s.wordAt l, s)

/-- An idle write of `v` to a location other than STATUS (R72): CMD issues, CTRL by R24 and R27, a writable register or
IN[i] stores `v`, a read-only or reserved location ignores it (R66, R67). -/
def writeIdle (l : Loc) (v : Word) (s : State) : State :=
  match l with
  | .cmd        => issue v s
  | .ctrl       => { s with ctrl := s.ctrl.write v }
  | .inLen      => { s with inLen := v }
  | .keyLen     => { s with keyLen := v }
  | .op 0       => { s with op0 := v }
  | .op 1       => { s with op1 := v }
  | .op 2       => { s with op2 := v }
  | .key 0      => { s with key0 := v }
  | .key 1      => { s with key1 := v }
  | .key 2      => { s with key2 := v }
  | .key 3      => { s with key3 := v }
  | .inBuf i    => { s with mem := s.mem.writeIn i v }
  | .id         => s
  | .cap        => s
  | .status     => s
  | .outLen     => s
  | .res _      => s
  | .outBuf _   => s
  | .reserved _ => s

/-- A host write of `v` to a location, by phase (R72). -/
def writeLoc (l : Loc) (v : Word) (s : State) : State :=
  if l = .status then acknowledge v s
  else if s.status.busy = true then { s with status := s.status.dropped }
  else writeIdle l v s

/-- The window holds byte addresses BASE .. BASE + 0xFFF (R60). -/
def State.inWindow (s : State) (addr : Nat) : Bool :=
  decide (s.params.base ≤ addr) && decide (addr < s.params.base + Config.windowBytes)

/-- Only aligned 32-bit accesses are admitted (R62, R63). -/
def Access.admitted (a : Access) : Bool := a.size == 4 && a.addr % 4 == 0

/-- An admitted access at offset `off`: it takes effect wholly (R71), and the port answers. -/
def transfer (off : Nat) (data : Option Word) (s : State) : State :=
  match data with
  | some v => { writeLoc (locate s.params.bufDepth off) v s with reply := some .ack }
  | none =>
    let (w, s') := readLoc (locate s.params.bufDepth off) s
    { s' with reply := some (.data w) }

/-- One host access (R60 to R73). Outside the window it does not reach the engine (R64); while reset is asserted it is
refused (R232); of a wrong width or alignment it gets a bus error and changes nothing (R62 to R64, R214). -/
def access (a : Access) (s : State) : Answer :=
  if s.inWindow a.addr = false then .fault (.outsideWindow a.addr)
  else if s.resetAsserted = true then .refused (.accessDuringReset a.addr)
  else if a.admitted = false then .next { s with reply := some (.busError a.addr) }
  else .next (transfer (a.addr - s.params.base) a.data s)

/-! ### Reset -/

/-- The platform asserts reset, in either phase (R230, R231): every register takes its reset value, a command in flight
is abandoned, the buffers are unspecified, and no access is served until reset is released. BASE and BUF_DEPTH keep
their values, and the hosts and the coming turns are outside the engine. -/
def assertReset (s : State) : State :=
  { State.afterReset s.params s.draws with
    resetAsserted := true, reply := s.reply, hosts := s.hosts, turns := s.turns }

/-- The platform releases reset (R232). -/
def releaseReset (s : State) : State := { s with resetAsserted := false }

end Sys2Proof.Machine
end

