-- ==== Sys2Proof/Machine/Codec.lean ====
section
/-!
DEFINITION. The alphabet codec (41_alphabet_codec.md rules R140, R141) and the commands TXT2NUM (R142) and NUM2TXT (R143).
-/

namespace Sys2Proof.Machine

/-- `IsLetter` of R140: the 52 ASCII letter bytes. -/
def isLetter (c : Byte) : Bool :=
  (0x41 ≤ c.toNat && c.toNat ≤ 0x5A) || (0x61 ≤ c.toNat && c.toNat ≤ 0x7A)

/-- `Code` of R140, for a letter: both cases give the same code. -/
def letterCode (c : Byte) : Int :=
  if c.toNat ≤ 0x5A then (c.toNat : Int) - 0x41 else (c.toNat : Int) - 0x61

/-- `TextToCodes` of R140: non-letters are dropped, order is kept. -/
def textToCodes (cs : List Byte) : List Int := (cs.filter isLetter).map letterCode

/-- `CodeToLetter(v)` of R141: always an upper-case letter byte. -/
def codeToLetter (v : Int) : Int := 0x41 + v % 26

/-- `Exec_TXT2NUM()` of R142. -/
def txt2numResult (s : State) : CmdResult :=
  if s.lengthBad then .error .length
  else .ok (.buffer ((textToCodes s.inText).map word))

/-- TXT2NUM (R142). -/
def execTxt2num (s : State) : Answer := .next (commit (txt2numResult s) s)

/-- `Exec_NUM2TXT()` of R143. -/
def num2txtResult (s : State) : CmdResult :=
  if s.lengthBad then .error .length
  else .ok (.buffer (s.inCodes.map fun v => word (codeToLetter v)))

/-- NUM2TXT (R143). -/
def execNum2txt (s : State) : Answer := .next (commit (num2txtResult s) s)

end Sys2Proof.Machine
end

