-- ==== Sys2Proof/Machine/Modular.lean ====
section
/-!
DEFINITION. Modular arithmetic: the shared functions of 40_modular_arithmetic.md rules R120 to R123, and the commands MODINV
(R124) and MODPOW (R125). `%` on integers with a positive modulus is the floor remainder of 00_scope.md rule R10.
-/

namespace Sys2Proof.Machine

/-- The extended Euclidean loop of R121 on (r0, r1, x0, x1): the remainder r0 and coefficient x0 when r1 reaches 0.
`fuel` bounds the iterations. -/
def euclidLoop : Nat → Int → Int → Int → Int → Int × Int
  | 0, r0, _, x0, _ => (r0, x0)
  | fuel + 1, r0, r1, x0, x1 =>
    if r1 = 0 then (r0, x0)
    else euclidLoop fuel r1 (r0 - r0 / r1 * r1) x1 (x0 - r0 / r1 * x1)

/-- `ModInverseFn(a, m)` of R120, for m ≥ 1; `none` is NONE. The value is computed by the loop of R121, which R120
admits ("a model may compute R120 by any means"; log 12). -/
def modInverseFn (a m : Int) : Option Int :=
  if Int.gcd (a % m) m ≠ 1 then none
  else if m = 1 then some 0
  else some ((euclidLoop (m.toNat + 1) (a % m) m 1 0).2 % m)

/-- The square-and-multiply loop of R123 on (r, b, e). `fuel` bounds the iterations. -/
def powLoop : Nat → Nat → Nat → Nat → Nat → Nat
  | 0, _, r, _, _ => r
  | fuel + 1, m, r, b, e =>
    if e = 0 then r
    else powLoop fuel m (if e % 2 = 1 then r * b % m else r) (b * b % m) (e / 2)

/-- `ModPowFn(base, exp, mod)` of R122, for exp ≥ 0 and mod ≥ 1, computed by the loop of R123 (log 12). The base is
normalised to [0, mod) first. -/
def modPowFn (base exp mod : Int) : Int :=
  powLoop (exp.toNat + 1) mod.toNat (1 % mod.toNat) (base % mod).toNat exp.toNat

/-- `Exec_MODINV()` of R124. -/
def modinvResult (s : State) : CmdResult :=
  let a := s32 s.op0
  let m := s32 s.op1
  if m ≤ 0 then .error .badModulus
  else
    match modInverseFn a m with
    | none   => .error .nonInvertible
    | some b => .ok (.regs [(.res0, word b)])

/-- MODINV (R124). -/
def execModinv (s : State) : Answer := .next (commit (modinvResult s) s)

/-- `Exec_MODPOW()` of R125. -/
def modpowResult (s : State) : CmdResult :=
  let base := s32 s.op0
  let exp := s32 s.op1
  let mod := s32 s.op2
  if mod ≤ 0 then .error .badModulus
  else if exp < 0 then .error .negativeExponent
  else .ok (.regs [(.res0, word (modPowFn base exp mod))])

/-- MODPOW (R125). -/
def execModpow (s : State) : Answer := .next (commit (modpowResult s) s)

end Sys2Proof.Machine
end

