-- ==== Sys2Proof/Machine/Hill.lean ====
section
/-!
DEFINITION. The Hill cipher (42_hill_cipher.md): the shared functions R150 to R154 and the commands HILL_ENC (R155), DET
(R156), MATINV26 (R157) and HILL_DEC (R158). All products are exact (R9).
-/

namespace Sys2Proof.Machine

/-- The direction of `OddAdjust` (R151). -/
inductive Direction where
  | enc
  | dec
deriving DecidableEq, Repr

/-- `OddAdjust(c, dir)` of R151 under policy `p` with filler code `f`. -/
def oddAdjust (p : OddPolicy) (f : Int) (dir : Direction) (c : List Int) : Except CmdError (List Int) :=
  if c.length % 2 = 0 then .ok c
  else
    match p, dir with
    | .reference, .enc => .ok (c ++ [f])
    | .reference, .dec => .ok (c.take (c.length - 1))
    | .pad, _          => .ok (c ++ [f])
    | .truncate, _     => .ok (c.take (c.length - 1))
    | .reject, _       => .error .oddLength

/-- `ApplyPairs(M, c)` of R152, for c of even length: each element in [0, 25]. -/
def applyPairs (m : Mat2) : List Int → List Int
  | x :: y :: rest =>
    (m.m00 * x + m.m01 * y) % 26 :: (m.m10 * x + m.m11 * y) % 26 :: applyPairs m rest
  | _ => []

/-- `Determinant(K)` of R153, exact. -/
def determinant (k : Mat2) : Int := k.m00 * k.m11 - k.m01 * k.m10

/-- What `InvertMatrix26` returns (R154). -/
structure Inverse26 where
  inv : Mat2
  /-- The determinant's residue. -/
  dm : Int
  /-- The residue's inverse modulo 26. -/
  di : Int
deriving DecidableEq, Repr

/-- `InvertMatrix26(K)` of R154. -/
def invertMatrix26 (k : Mat2) : Except CmdError Inverse26 :=
  let dm := determinant k % 26
  if Int.gcd dm 26 ≠ 1 then .error .nonInvertibleKey
  else
    match modInverseFn dm 26 with
    | none    => .error .nonInvertibleKey
    | some di =>
      .ok
        { inv :=
            { m00 := k.m11 * di % 26
              m01 := -k.m01 * di % 26
              m10 := -k.m10 * di % 26
              m11 := k.m00 * di % 26 }
          dm := dm
          di := di }

/-- Odd-length adjustment by CTRL, then the matrix: the common end of HILL_ENC and HILL_DEC (R155, R158). -/
def hillApply (m : Mat2) (dir : Direction) (c : List Int) (s : State) : CmdResult :=
  match oddAdjust s.ctrl.oddpol s.filler dir c with
  | .error e => .error e
  | .ok c'   => .ok (.buffer ((applyPairs m c').map word))

/-- `Exec_HILL_ENC()` of R155. -/
def hillEncResult (s : State) : CmdResult :=
  if s.lengthBad then .error .length
  else
    match buildKeyMatrix s with
    | .error e => .error e
    | .ok k    => hillApply k .enc (textToCodes s.inText) s

/-- HILL_ENC (R155). -/
def execHillEnc (s : State) : Answer := .next (commit (hillEncResult s) s)

/-- `Exec_DET()` of R156: the 64-bit two's complement of the determinant. -/
def detResult (s : State) : CmdResult :=
  match buildKeyMatrix s with
  | .error e => .error e
  | .ok k =>
    let t := determinant k % 2 ^ 64
    .ok (.regs [(.res0, word (t % 2 ^ 32)), (.res1, word (t / 2 ^ 32))])

/-- DET (R156). -/
def execDet (s : State) : Answer := .next (commit (detResult s) s)

/-- `Exec_MATINV26()` of R157. -/
def matinv26Result (s : State) : CmdResult :=
  match buildKeyMatrix s with
  | .error e => .error e
  | .ok k =>
    match invertMatrix26 k with
    | .error e => .error e
    | .ok r =>
      .ok (.regs
        [(.res0, word r.inv.m00), (.res1, word r.inv.m01), (.res2, word r.inv.m10),
         (.res3, word r.inv.m11), (.res4, word r.dm), (.res5, word r.di)])

/-- MATINV26 (R157). -/
def execMatinv26 (s : State) : Answer := .next (commit (matinv26Result s) s)

/-- The cipher codes that HILL_DEC reads, by its source form (R92, R158). -/
def cipherCodes (src : Source) (s : State) : List Int :=
  match src with
  | .text  => textToCodes s.inText
  | .codes => s.inCodes

/-- `Exec_HILL_DEC(s)` of R158: the key is checked before the input. -/
def hillDecResult (src : Source) (s : State) : CmdResult :=
  if s.lengthBad then .error .length
  else
    match buildKeyMatrix s with
    | .error e => .error e
    | .ok k =>
      match invertMatrix26 k with
      | .error e => .error e
      | .ok r    => hillApply r.inv .dec (cipherCodes src s) s

/-- HILL_DEC (R158). -/
def execHillDec (src : Source) (s : State) : Answer := .next (commit (hillDecResult src s) s)

end Sys2Proof.Machine
end

