-- ==== Sys2Proof/Machine/Rsa.lean ====
section
/-!
DEFINITION. Toy RSA (43_rsa.md): `GenerateKeyPairFn` (R180) and the commands RSA_KEYGEN (R181), RSA_ENC (R182) and RSA_DEC
(R183). Nothing checks that p or q is prime (R180).
-/

namespace Sys2Proof.Machine

/-- A derived key pair (R180). -/
structure KeyPair where
  n   : Int
  d   : Int
  phi : Int
deriving DecidableEq, Repr

/-- `GenerateKeyPairFn(p, q, e)` of R180, its checks in order. -/
def generateKeyPairFn (p q e : Int) : Except CmdError KeyPair :=
  let n := p * q
  let phi := (p - 1) * (q - 1)
  if ¬ INT32 n ∨ ¬ INT32 phi then .error .range
  else if phi < 1 then .error .badModulus
  else
    match modInverseFn e phi with
    | none   => .error .nonInvertibleExponent
    | some d => .ok { n := n, d := d, phi := phi }

/-- `Exec_RSA_KEYGEN()` of R181. -/
def rsaKeygenResult (s : State) : CmdResult :=
  match generateKeyPairFn (s32 s.op0) (s32 s.op1) (s32 s.op2) with
  | .error e => .error e
  | .ok k    => .ok (.regs [(.res0, word k.n), (.res1, word k.d), (.res2, word k.phi)])

/-- RSA_KEYGEN (R181). -/
def execRsaKeygen (s : State) : Answer := .next (commit (rsaKeygenResult s) s)

/-- The element-wise `ModPowFn` of R182 and R183: exponent OP0, modulus OP1. -/
def rsaApply (s : State) : CmdResult :=
  let e := s32 s.op0
  let n := s32 s.op1
  if s.lengthBad then .error .length
  else if n ≤ 0 then .error .badModulus
  else if e < 0 then .error .negativeExponent
  else .ok (.buffer (s.inCodes.map fun v => word (modPowFn v e n)))

/-- `Exec_RSA_ENC()` of R182. -/
def rsaEncResult (s : State) : CmdResult := rsaApply s

/-- RSA_ENC (R182). -/
def execRsaEnc (s : State) : Answer := .next (commit (rsaEncResult s) s)

/-- `Exec_RSA_DEC()` of R183: the pseudocode of R182 with d in place of e. -/
def rsaDecResult (s : State) : CmdResult := rsaApply s

/-- RSA_DEC (R183). -/
def execRsaDec (s : State) : Answer := .next (commit (rsaDecResult s) s)

end Sys2Proof.Machine
end

