-- ==== Sys2Proof/Machine/Dispatch.lean ====
section
/-!
DEFINITION. One arm per command: execution and completion in one atomic step (30_encoding.md rule R100). The engine's step
(Machine/Sequencer.lean) calls it only while BUSY = 1.
-/

namespace Sys2Proof.Machine

def exec (i : Instr) (s : State) : Host.Outcome State Fault Refusal :=
  match i with
  | .modinv => Sys2Proof.Machine.execModinv s
  | .modpow => Sys2Proof.Machine.execModpow s
  | .txt2num => Sys2Proof.Machine.execTxt2num s
  | .num2txt => Sys2Proof.Machine.execNum2txt s
  | .hillEnc => Sys2Proof.Machine.execHillEnc s
  | .det => Sys2Proof.Machine.execDet s
  | .matinv26 => Sys2Proof.Machine.execMatinv26 s
  | .hillDec src => Sys2Proof.Machine.execHillDec src s
  | .rsaKeygen => Sys2Proof.Machine.execRsaKeygen s
  | .rsaEnc => Sys2Proof.Machine.execRsaEnc s
  | .rsaDec => Sys2Proof.Machine.execRsaDec s

end Sys2Proof.Machine
end

