-- ==== Sys2Proof/Machine/HostAgent.lean ====
section
/-!
DEFINITION. The host agents: what a line of the host notation does (30_encoding.md rule R105) and how the pseudo-instructions
expand (R106). Host-local variables and branches belong to the host, not to the engine (log 14).
-/

namespace Sys2Proof.Machine

/-- A number of its own for every variable: it indexes the free values of unassigned variables (log 14). -/
def varNumber : Var → Nat
  | .t        => 0
  | .r n      => 3 * n + 1
  | .len n    => 3 * n + 2
  | .elem n i => 3 * (Nat.pair n i) + 3

/-- A host variable's value: the newest assignment, and before any a free value (log 14). -/
def HostAgent.get (h : HostAgent) (x : Var) : Word :=
  (h.vars.lookup x).getD (Config.freeHostWord h.seed (varNumber x))

/-- `x <- w`. -/
def HostAgent.set (h : HostAgent) (x : Var) (w : Word) : HostAgent :=
  { h with vars := (x, w) :: h.vars.filter fun b => b.1 != x }

/-- The host goes on to its next line. -/
def HostAgent.advance (h : HostAgent) : HostAgent := { h with pc := h.pc + 1 }

/-- The data of a `WR` line (R105). -/
def HostAgent.eval (h : HostAgent) : HostVal → Word
  | .imm w => w
  | .var x => h.get x

/-- Host agent `k` replaced. -/
def State.setHost (s : State) (k : Nat) (h : HostAgent) : State := { s with hosts := s.hosts.set k h }

/-- Host agent `k` goes to label `l` of its program, or the model refuses a label that is not there (log 14). -/
def branchTo (l : Label) (k : Nat) (h : HostAgent) (s : State) : Answer :=
  if h.prog.contains (.label l) then
    .next (s.setHost k { h with pc := h.prog.findIdx (· == .label l) })
  else .refused (.noSuchLabel l)

/-- A branch that is taken when `c` holds. -/
def branchIf (c : Bool) (l : Label) (k : Nat) (h : HostAgent) (s : State) : Answer :=
  if c then branchTo l k h s else .next (s.setHost k h.advance)

/-- A bus access of host agent `k`; `f` is what the host does with the state the access leaves. -/
def hostAccess (a : Access) (f : State → State) (s : State) : Answer :=
  match access a s with
  | .next s'   => .next (f s')
  | .fault e   => .fault e
  | .refused e => .refused e

/-- The data of the last reply; only a read's reply carries data (R64). -/
def State.replyData (s : State) : Option Word :=
  match s.reply with
  | some (.data w) => some w
  | _ => none

/-- Host agent `k` receives the data of its read, if there is any, and goes on. -/
def receive (x : Var) (k : Nat) (h : HostAgent) (s : State) : State :=
  match s.replyData with
  | some w => s.setHost k (h.set x w).advance
  | none   => s.setHost k h.advance

/-- Host agent `k` receives entry `h.reads` of READBUF result `n`, and stays at its line for the next entry. -/
def receiveElem (n k : Nat) (h : HostAgent) (s : State) : State :=
  match s.replyData with
  | some w => s.setHost k { h.set (.elem n h.reads) w with reads := h.reads + 1 }
  | none   => s.setHost k { h with reads := h.reads + 1 }

/-- The reads of READBUF result `n` (R106): while fewer than r.len entries are read, the next one is one bus read; then the
host goes on. -/
def readElems (n k : Nat) (h : HostAgent) (s : State) : Answer :=
  if h.reads < u32 (h.get (.len n)) then
    hostAccess { addr := s.params.base + offsetOf (.outBuf h.reads), size := 4, data := none } (receiveElem n k h) s
  else .next (s.setHost k { h.advance with reads := 0 })

/-- Host agent `k` executes one line (R105). -/
def hostLine (line : HostLine) (k : Nat) (h : HostAgent) (s : State) : Answer :=
  match line with
  | .wr reg v   =>
    hostAccess { addr := s.params.base + offsetOf reg, size := 4, data := some (h.eval v) }
      (fun s' => s'.setHost k h.advance) s
  | .rd reg x   =>
    hostAccess { addr := s.params.base + offsetOf reg, size := 4, data := none } (receive x k h) s
  | .bset x b l => branchIf ((h.get x).getLsbD b.val) l k h s
  | .bclr x b l => branchIf (!(h.get x).getLsbD b.val) l k h s
  | .bne x i l  => branchIf (h.get x != i) l k h s
  | .jmp l      => branchTo l k h s
  | .halt       => .next s
  | .label _    => .next (s.setHost k h.advance)
  | .rdElems n  => readElems n k h s

/-- The turn of host agent `k`: its next line. A host that is not there, or is past its last line, does nothing. -/
def hostTurn (k : Nat) (s : State) : Answer :=
  match s.hosts[k]? with
  | none => .next s
  | some h =>
    match h.prog[h.pc]? with
    | none => .next s
    | some line => hostLine line k h s

/-! ### Pseudo-instructions -/

/-- `WAIT` (R106): poll until BUSY = 0. -/
def expandWait (l : Nat) : List HostLine :=
  [.label (.fresh l), .rd .status .t, .bset .t 0 (.fresh l)]

/-- `LOADBUF [v0, ..., vk-1]` (R106). -/
def expandLoadBuf (vs : List HostVal) : List HostLine :=
  (vs.zipIdx.map fun b => .wr (.inBuf b.2) b.1) ++ [.wr .inLen (.imm (word vs.length))]

/-- The ASCII byte values of a string literal (R106). -/
def asciiValues (text : String) : List HostVal :=
  text.toList.map fun c => .imm (BitVec.ofNat 32 c.toNat)

/-- One source line expanded (R106): the lines, and the next fresh label number. -/
def expandOne (fresh : Nat) : Pseudo → List HostLine × Nat
  | .line l         => ([l], fresh)
  | .wait           => (expandWait fresh, fresh + 1)
  | .run i          => (.wr .cmd (.imm (encode i)) :: expandWait fresh, fresh + 1)
  | .loadBuf vs     => (expandLoadBuf vs, fresh)
  | .loadText text  => (expandLoadBuf (asciiValues text), fresh)
  | .setKey a b c d =>
    ([.wr (.key 0) a, .wr (.key 1) b, .wr (.key 2) c, .wr (.key 3) d, .wr .keyLen (.imm 4#32)], fresh)
  | .readBuf n      => ([.rd .outLen (.len n), .rdElems n], fresh)
  | .check x        => ([.rd .status x], fresh)

/-- A source program expanded, its fresh labels numbered from `fresh` (R106). -/
def expand (fresh : Nat) : List Pseudo → List HostLine
  | [] => []
  | p :: ps => (expandOne fresh p).1 ++ expand (expandOne fresh p).2 ps

/-- A host agent at the start of a source program. -/
def HostAgent.start (seed : Nat) (ps : List Pseudo) : HostAgent :=
  { prog := expand 0 ps, pc := 0, vars := [], seed := seed, reads := 0 }

end Sys2Proof.Machine
end

