-- ==== Sys2Proof/Machine/Sequencer.lean ====
section
/-!
DEFINITION. The sequencer: the engine's step (30_encoding.md rule R100) and one move of the total order of host accesses,
engine steps and reset (20_memory.md rule R74).
-/

namespace Sys2Proof.Machine

/-- The command word the engine's step decodes: CMD, taken from the CMD write when it was accepted (R77). -/
def fetchWord (s : State) : Word := s.cmd

/-- A command word that decodes to ILLEGAL completes with ILLEGAL_CMD and writes nothing but STATUS (R96, R211). -/
def execIllegal (s : State) : Answer := .next (commit (.error .illegalCmd) s)

/-- `engine_step()` of R100. -/
def engineStep (s : State) : Answer :=
  match decode (fetchWord s) with
  | .ok i    => exec i s
  | .error _ => execIllegal s

/-- The engine has a step exactly while BUSY = 1 (R43, R100), and none while reset is asserted (R232). -/
def State.engineEnabled (s : State) : Bool := s.status.busy && !s.resetAsserted

/-- The engine's turn: its one enabled step, or in IDLE nothing (R43, log 3). -/
def engineTurn (s : State) : Answer :=
  if s.engineEnabled then engineStep s else .next s

/-- One move (R74). -/
def runTurn (t : Turn) (s : State) : Answer :=
  match t with
  | .engine       => engineTurn s
  | .access a     => access a s
  | .host k       => hostTurn k s
  | .resetAssert  => .next (assertReset s)
  | .resetRelease => .next (releaseReset s)

/-- The next move of the total order: the head of `turns`; when none is left the engine moves (log 1). -/
def nextMove (s : State) : Turn × State :=
  match s.turns with
  | []      => (.engine, s)
  | t :: ts => (t, { s with turns := ts })

/-- A command word placed as the word in flight, with the engine to move next: the state a host's accepted CMD write
leaves (R99), whatever the phase was, and reset released (log 2). -/
def placeCommand (w : Word) (s : State) : State :=
  { issue w s with
    resetAsserted := false
    turns := match s.turns with
      | []      => []
      | t :: ts => .engine :: t :: ts }

end Sys2Proof.Machine
end

