-- ==== Sys2Proof/Machine/Step.lean ====
section
/-!
DEFINITION. One step of the machine: the next move of the total order (20_memory.md rule R74).
-/

namespace Sys2Proof.Machine

/-- One step: the head of the total order moves (R71, R74). -/
def step (s : State) : Host.Outcome State Fault Refusal :=
  runTurn (nextMove s).1 (nextMove s).2

/-- `s` with the command of table bits `w` in CMD and in flight, so that the next step runs it (log 2). -/
def State.withFetchWord (s : State) (nbits w : Nat) : State :=
  placeCommand (tableWord nbits w) s

end Sys2Proof.Machine
end

