-- ==== Sys2Proof/Safety.lean ====
section
/-!
DEFINITION. The invariant of the machine, and the words in which claims speak of it, each written from the rule it
names and not from the meanings it is used to describe.
-/

namespace Sys2Proof.Machine

/-! ### The invariant -/

/-- The parameters are legal (R7). -/
abbrev State.ParamsLegal (s : State) : Prop := s.params.wellFormed = true

/-- Each buffer has exactly BUF_DEPTH entries (R41, R42). -/
abbrev State.MemWf (s : State) : Prop := s.mem.wf s.params.bufDepth = true

/-- FILLER always holds a value in [0, 25] (R27). -/
abbrev State.FillerLegal (s : State) : Prop := s.ctrl.filler.toNat ≤ 25

/-- While BUSY = 1, DONE is 0 and ERR is 0 (R30, R32, R99). -/
abbrev State.BusyClean (s : State) : Prop :=
  s.status.busy = true → s.status.done = false ∧ s.status.err = .ok

/-- OUT_LEN never exceeds BUF_DEPTH: it is 0 after reset, and an output always fits (R35, R155). -/
abbrev State.OutLenFits (s : State) : Prop := u32 s.outLen ≤ s.params.bufDepth

/-- While reset is asserted the engine is IDLE (R230, R232). -/
abbrev State.ResetIdle (s : State) : Prop := s.resetAsserted = true → s.status.busy = false

/-- The invariant that every step keeps. -/
abbrev State.Inv (s : State) : Prop :=
  s.ParamsLegal ∧ s.MemWf ∧ s.FillerLegal ∧ s.BusyClean ∧ s.OutLenFits ∧ s.ResetIdle

/-- The machine after reset with parameters `p`, `hosts` on the bus and `turns` as the total order to come: where every
run of this hardware begins (R74, R233). -/
def State.boot (p : Params) (hosts : List HostAgent) (turns : List Turn) : State :=
  { State.afterReset p 0 with hosts := hosts, turns := turns }

/-- `t` is reached from `s` by steps that all answer a next state. -/
inductive Reaches (s : State) : State → Prop where
  | refl : Reaches s s
  | tail {t u : State} : Reaches s t → step t = .next u → Reaches s u

/-! ### How a command ends -/

/-- STATUS after completion with outcome `c` (R103): BUSY 0, DONE 1, ERR c, WERR as before. -/
def finished (s : State) (c : Completion) : Status :=
  { busy := false, done := true, werr := s.status.werr, err := c }

/-- Command `i` completes with error `e` and writes nothing but STATUS (R102, R103). -/
def failsWith (i : Instr) (s : State) (e : CmdError) : Prop :=
  exec i s = .next { s with status := finished s (.err e) }

/-- The state after a buffer command with output `o`: OUT[0..L-1] <- o, OUT[L..] unchanged, OUT_LEN <- L, completion OK
(R42, R103). -/
def bufferDone (s : State) (o : List Int) : State :=
  { s with
    mem := { s.mem with outBuf := o.map word ++ s.mem.outBuf.drop o.length }
    outLen := word o.length
    status := finished s .ok }

/-- IN[0..k-1], k = u32(IN_LEN). -/
def input (s : State) : List Word := s.mem.inBuf.take (u32 s.inLen)

/-- The code that the table of R140 gives a character word, by bits 7:0; `none` for a non-letter. -/
def tableCode (w : Word) : Option Int :=
  let c := w.toNat % 256
  if 0x41 ≤ c ∧ c ≤ 0x5A then some ((c : Int) - 0x41)
  else if 0x61 ≤ c ∧ c ≤ 0x7A then some ((c : Int) - 0x61)
  else none

/-- The alphabet codes of a sequence of text entries: non-letters dropped, order kept (R140). -/
def lettersOf (ws : List Word) : List Int := ws.filterMap tableCode

/-- R151: `c'` is `c` adjusted to even length under policy `p` with filler `f` in direction `dir`. -/
def adjusted (p : OddPolicy) (f : Int) (dir : Direction) (c c' : List Int) : Prop :=
  (c.length % 2 = 0 ∧ c' = c) ∨
  (c.length % 2 = 1 ∧ (p = .pad ∨ (p = .reference ∧ dir = .enc)) ∧ c' = c ++ [f]) ∨
  (c.length % 2 = 1 ∧ (p = .truncate ∨ (p = .reference ∧ dir = .dec)) ∧ ∃ x, c = c' ++ [x])

/-- R152: `o` is the matrix `m` applied to the even-length sequence `c` pair by pair, by index. -/
def pairProduct (m : Mat2) (c o : List Int) : Prop :=
  o.length = c.length ∧
  ∀ j, 2 * j + 1 < c.length →
    o.getD (2 * j) 0 = (m.m00 * c.getD (2 * j) 0 + m.m01 * c.getD (2 * j + 1) 0) % 26 ∧
    o.getD (2 * j + 1) 0 = (m.m10 * c.getD (2 * j) 0 + m.m11 * c.getD (2 * j + 1) 0) % 26

/-- R153 on the KEY registers: k00*k11 - k01*k10. -/
def keyDet (s : State) : Int := s32 s.key0 * s32 s.key3 - s32 s.key1 * s32 s.key2

/-- R154: the adjugate of the key matrix scaled by `di` and reduced into [0, 26). -/
def keyInverse (s : State) (di : Int) : Mat2 :=
  { m00 := s32 s.key3 * di % 26, m01 := -s32 s.key1 * di % 26
    m10 := -s32 s.key2 * di % 26, m11 := s32 s.key0 * di % 26 }

/-- `di` is the inverse of the key determinant's residue modulo 26 (R154, R120). -/
def isDetInverse (s : State) (di : Int) : Prop :=
  0 ≤ di ∧ di < 26 ∧ keyDet s % 26 * di % 26 = 1

/-! ### What a command reads and writes (R107) -/

/-- The text entries of IN[0..k-1] by their bits 7:0. -/
def textRead (s : State) : List Nat := (input s).map fun w => w.toNat % 256

/-- The code entries of IN[0..k-1]. -/
def codeRead (s : State) : List Nat := (input s).map fun w => w.toNat

/-- The key registers and their length. -/
def keyRead (s : State) : List Nat :=
  [s.keyLen.toNat, s.key0.toNat, s.key1.toNat, s.key2.toNat, s.key3.toNat]

/-- CTRL.ODDPOL and CTRL.FILLER. -/
def policyRead (s : State) : List Nat := [s.ctrl.oddpol.bits.toNat, s.ctrl.filler.toNat]

/-- The column "reads" of R107. -/
def readsOf (i : Instr) (s : State) : List Nat :=
  match i with
  | .modinv         => [s.op0.toNat, s.op1.toNat]
  | .modpow         => [s.op0.toNat, s.op1.toNat, s.op2.toNat]
  | .txt2num        => s.inLen.toNat :: textRead s
  | .num2txt        => s.inLen.toNat :: codeRead s
  | .hillEnc        => s.inLen.toNat :: keyRead s ++ policyRead s ++ textRead s
  | .det            => keyRead s
  | .matinv26       => keyRead s
  | .hillDec .codes => s.inLen.toNat :: keyRead s ++ policyRead s ++ codeRead s
  | .hillDec .text  => s.inLen.toNat :: keyRead s ++ policyRead s ++ textRead s
  | .rsaKeygen      => [s.op0.toNat, s.op1.toNat, s.op2.toNat]
  | .rsaEnc         => s.inLen.toNat :: s.op0.toNat :: s.op1.toNat :: codeRead s
  | .rsaDec         => s.inLen.toNat :: s.op0.toNat :: s.op1.toNat :: codeRead s

/-- OUT_LEN and OUT[0..L-1]. -/
def outputWords (s : State) : List Word := s.outLen :: s.mem.outBuf.take (u32 s.outLen)

/-- The column "writes on success" of R107. -/
def writesOf (i : Instr) (s : State) : List Word :=
  match i with
  | .modinv    => [s.res0]
  | .modpow    => [s.res0]
  | .txt2num   => outputWords s
  | .num2txt   => outputWords s
  | .hillEnc   => outputWords s
  | .det       => [s.res0, s.res1]
  | .matinv26  => [s.res0, s.res1, s.res2, s.res3, s.res4, s.res5]
  | .hillDec _ => outputWords s
  | .rsaKeygen => [s.res0, s.res1, s.res2]
  | .rsaEnc    => outputWords s
  | .rsaDec    => outputWords s

/-! ### What a move does on the bus -/

/-- The access that offset `off` of the window gets: a read, or a write of the data. -/
def accessAt (s : State) (off : Nat) (data : Option Word) : Access :=
  { addr := s.params.base + off, size := 4, data := data }

/-- The bus access that host agent `k`'s next line makes, if it is a `WR` or an `RD` line or one of the
reads of READBUF (R105, R106). -/
def hostAccessOf (k : Nat) (s : State) : Option Access :=
  match s.hosts[k]? with
  | none => none
  | some h =>
    match h.prog[h.pc]? with
    | some (.wr reg v) => some (accessAt s (offsetOf reg) (some (h.eval v)))
    | some (.rd reg _) => some (accessAt s (offsetOf reg) none)
    | some (.rdElems n) =>
      if h.reads < u32 (h.get (.len n)) then some (accessAt s (offsetOf (.outBuf h.reads)) none) else none
    | _ => none

/-- The turn of host agent `k` takes it to its next line and changes nothing else. -/
def goesOn (k : Nat) (h : HostAgent) (s : State) : Prop :=
  hostTurn k s = .next { s with hosts := s.hosts.set k { h with pc := h.pc + 1 } }

/-- The turn of host agent `k` takes it to the first line that carries label `l` and changes nothing else; when no line
carries it, the turn is refused by name (log 14). -/
def branchesTo (l : Label) (k : Nat) (h : HostAgent) (s : State) : Prop :=
  (∀ i, h.prog[i]? = some (.label l) → (∀ j, j < i → h.prog[j]? ≠ some (.label l)) →
    hostTurn k s = .next { s with hosts := s.hosts.set k { h with pc := i } }) ∧
  (.label l ∉ h.prog → hostTurn k s = .refused (.noSuchLabel l))

/-- The bus access that the next move makes, if it makes one: a raw access, or a host's line. -/
def nextAccess (s : State) : Option Access :=
  match (nextMove s).1 with
  | .access a => some a
  | .host k   => hostAccessOf k s
  | _         => none

/-- The next move is an accepted CMD write of `v`: a write to 0x010 while idle (R29, R33). -/
def acceptsCommand (s : State) (v : Word) : Prop :=
  nextAccess s = some (accessAt s 0x010 (some v)) ∧ s.status.busy = false

/-- The next move is a STATUS write with bit `b` set (R30, R31). -/
def clearsBit (s : State) (b : Nat) : Prop :=
  ∃ v : Word, nextAccess s = some (accessAt s 0x00C (some v)) ∧ v.getLsbD b = true

/-- The next move is a write that is dropped: to an aligned offset of the window other than STATUS while busy (R72). -/
def dropsWrite (s : State) : Prop :=
  ∃ (off : Nat) (v : Word), off < 4096 ∧ off % 4 = 0 ∧ off ≠ 0x00C ∧
    nextAccess s = some (accessAt s off (some v)) ∧ s.status.busy = true

/-- The next move is the engine's step of the command in flight (R100). -/
def completesCommand (s : State) : Prop := (nextMove s).1 = .engine ∧ s.engineEnabled = true

/-- The port serves accesses: the parameters are legal and reset is released (R7, R232). -/
abbrev State.PortOpen (s : State) : Prop := s.ParamsLegal ∧ s.resetAsserted = false

end Sys2Proof.Machine
end

