-- ==== Sys2Proof/Certificates/Slice0/Obligations.lean ====
section
/-!
DEFINITION. The statements for the provers, from the numbered rules of spec/.
-/

open Sys2Proof Sys2Proof.Machine

/-! ### The command word -/

/-- R95: each command word of the opcode map decodes to its command. -/
def Obligations.DecodeReadsTheOpcodeMap : Prop :=
  decode 0x00000001#32 = .ok .modinv ∧ decode 0x00000002#32 = .ok .modpow ∧
  decode 0x00000003#32 = .ok .txt2num ∧ decode 0x00000004#32 = .ok .num2txt ∧
  decode 0x00000005#32 = .ok .hillEnc ∧ decode 0x00000006#32 = .ok .det ∧
  decode 0x00000007#32 = .ok .matinv26 ∧ decode 0x00000008#32 = .ok (.hillDec .codes) ∧
  decode 0x00000108#32 = .ok (.hillDec .text) ∧ decode 0x00000009#32 = .ok .rsaKeygen ∧
  decode 0x0000000A#32 = .ok .rsaEnc ∧ decode 0x0000000B#32 = .ok .rsaDec

/-- R91, R93 and the decoder of R96, by the bits of the word as numbers: which words are illegal and why, and
every other word is the encoding of the command it decodes to. -/
def Obligations.DecodeFollowsTheFieldRules : Prop :=
  ∀ w : Word,
    (w.toNat / 2 ^ 9 ≠ 0 → decode w = .error .reservedBits) ∧
    (w.toNat / 2 ^ 9 = 0 → w.toNat % 2 ^ 8 = 0 ∨ 0x0B < w.toNat % 2 ^ 8 →
      decode w = .error .undefinedOpcode) ∧
    (w.toNat / 2 ^ 9 = 0 → 1 ≤ w.toNat % 2 ^ 8 → w.toNat % 2 ^ 8 ≤ 0x0B → w.toNat / 2 ^ 8 % 2 = 1 →
      w.toNat % 2 ^ 8 ≠ 8 → decode w = .error .strayS) ∧
    (w.toNat / 2 ^ 9 = 0 → 1 ≤ w.toNat % 2 ^ 8 → w.toNat % 2 ^ 8 ≤ 0x0B →
      w.toNat / 2 ^ 8 % 2 = 0 ∨ w.toNat % 2 ^ 8 = 8 → ∃ i, decode w = .ok i ∧ encode i = w)

/-- Decode and encode agree in both directions: a word decodes to a command exactly when it is that command's word. -/
def Obligations.DecodeAcceptsExactlyTheEncodedWords : Prop :=
  ∀ (w : Word) (i : Instr), decode w = .ok i ↔ w = encode i

/-- R96: the number of illegal words is 2^32 - 12. -/
def Obligations.IllegalWordsNumberAllButTwelve : Prop :=
  Set.ncard {w : Word | ∀ i : Instr, decode w ≠ .ok i} = 2 ^ 32 - 12

/-- R65: the byte lanes are little-endian, and the word is read back from them. -/
def Obligations.ByteLanesAreLittleEndian : Prop :=
  ∀ w : Word, ∃ b0 b1 b2 b3 : Byte,
    bytesOfWord w = [b0, b1, b2, b3] ∧
    w.toNat = b0.toNat + 2 ^ 8 * b1.toNat + 2 ^ 16 * b2.toNat + 2 ^ 24 * b3.toNat ∧
    wordOfBytes b0 b1 b2 b3 = w

/-! ### The sequencer -/

/-- R74: a step is the head move of the total order, made on the state without it; with none left it is the engine's. -/
def Obligations.StepMakesTheNextMove : Prop :=
  (∀ (s : State) (t : Turn) (ts : List Turn), s.turns = t :: ts →
    step s = runTurn t { s with turns := ts }) ∧
  (∀ s : State, s.turns = [] → step s = engineTurn s)

/-- R100, first half: at the engine's move, a busy engine whose CMD decodes to `i` runs `i` and nothing else; with turns
to come, on the state without that turn. -/
def Obligations.StepRunsTheDecodedCommand : Prop :=
  ∀ (s : State) (i : Instr), s.status.busy = true → s.resetAsserted = false → decode s.cmd = .ok i →
    i.wellFormed = true →
    (s.turns = [] → step s = exec i s) ∧
    (∀ ts, s.turns = .engine :: ts → step s = exec i { s with turns := ts })

/-- R43: in IDLE the engine takes no step. The model answers its turn with the unchanged state (log 3). -/
def Obligations.IdleEngineTakesNoStep : Prop :=
  ∀ s : State, s.status.busy = false →
    (s.turns = [] → step s = .next s) ∧
    (∀ ts, s.turns = .engine :: ts → step s = .next { s with turns := ts })

/-- R211: at the engine's move, an illegal command word completes with ILLEGAL_CMD and writes nothing but STATUS; with turns
to come, on the state without that turn. -/
def Obligations.IllegalWordCompletesWithIllegalCmd : Prop :=
  ∀ (s : State), s.status.busy = true → s.resetAsserted = false → (∀ i, decode s.cmd ≠ .ok i) →
    (s.turns = [] → step s = .next { s with status := finished s (.err .illegalCmd) }) ∧
    (∀ ts, s.turns = .engine :: ts →
      step s = .next { s with turns := ts, status := finished s (.err .illegalCmd) })

/-- R103: every command completes, with BUSY 0, DONE 1 and WERR unchanged, whether it succeeds or fails. -/
def Obligations.EveryCommandCompletes : Prop :=
  ∀ (i : Instr) (s : State), ∃ t, exec i s = .next t ∧ t.status = finished s t.status.err

/-- R102: a command that ends in an error has written no register and no buffer entry apart from STATUS. -/
def Obligations.FailingCommandWritesOnlyStatus : Prop :=
  ∀ (i : Instr) (s t : State), exec i s = .next t → t.status.err ≠ .ok → t = { s with status := t.status }

/-- R101 and R217: no command changes a register it may read, CMD, or anything outside the engine. -/
def Obligations.CommandsKeepTheirInputs : Prop :=
  ∀ (i : Instr) (s t : State), exec i s = .next t →
    t.ctrl = s.ctrl ∧ t.cmd = s.cmd ∧ t.inLen = s.inLen ∧ t.keyLen = s.keyLen ∧
    t.op0 = s.op0 ∧ t.op1 = s.op1 ∧ t.op2 = s.op2 ∧
    t.key0 = s.key0 ∧ t.key1 = s.key1 ∧ t.key2 = s.key2 ∧ t.key3 = s.key3 ∧
    t.mem.inBuf = s.mem.inBuf ∧ t.params = s.params ∧ t.resetAsserted = s.resetAsserted ∧
    t.reply = s.reply ∧ t.draws = s.draws ∧ t.hosts = s.hosts ∧ t.turns = s.turns

/-- R107 and R223: the outcome of a command, and what it writes when it succeeds, are a function of the registers that
R107 says it reads (and of BUF_DEPTH). -/
def Obligations.OutcomeDependsOnlyOnRegistersRead : Prop :=
  ∀ (i : Instr) (s t s' t' : State), s.params.bufDepth = t.params.bufDepth → s.ParamsLegal → s.MemWf → t.MemWf →
    readsOf i s = readsOf i t → exec i s = .next s' → exec i t = .next t' →
    s'.status.err = t'.status.err ∧ (s'.status.err = .ok → writesOf i s' = writesOf i t')

/-! ### The commands -/

/-- R124 and R126: MODINV, with its errors in priority order. -/
def Obligations.ModinvFollowsItsRule : Prop :=
  ∀ (s : State) (a m : Int), s32 s.op0 = a → s32 s.op1 = m →
    (m ≤ 0 → failsWith .modinv s .badModulus) ∧
    (1 ≤ m → Int.gcd (a % m) m ≠ 1 → failsWith .modinv s .nonInvertible) ∧
    (m = 1 → exec .modinv s = .next { s with res0 := 0#32, status := finished s .ok }) ∧
    (2 ≤ m → Int.gcd (a % m) m = 1 → ∃ b : Int, 1 ≤ b ∧ b < m ∧ a * b % m = 1 ∧
      exec .modinv s = .next { s with res0 := word b, status := finished s .ok })

/-- R125: MODPOW, with its errors in priority order. -/
def Obligations.ModpowFollowsItsRule : Prop :=
  ∀ (s : State) (b e m : Int), s32 s.op0 = b → s32 s.op1 = e → s32 s.op2 = m →
    (m ≤ 0 → failsWith .modpow s .badModulus) ∧
    (1 ≤ m → e < 0 → failsWith .modpow s .negativeExponent) ∧
    (1 ≤ m → 0 ≤ e →
      exec .modpow s = .next { s with res0 := word ((b % m) ^ e.toNat % m), status := finished s .ok })

/-- R142: TXT2NUM. -/
def Obligations.Txt2numFollowsItsRule : Prop :=
  ∀ s : State,
    (s.params.bufDepth < u32 s.inLen → failsWith .txt2num s .length) ∧
    (s.MemWf → u32 s.inLen ≤ s.params.bufDepth →
      exec .txt2num s = .next (bufferDone s (lettersOf (input s))))

/-- R143: NUM2TXT. -/
def Obligations.Num2txtFollowsItsRule : Prop :=
  ∀ s : State,
    (s.params.bufDepth < u32 s.inLen → failsWith .num2txt s .length) ∧
    (s.MemWf → u32 s.inLen ≤ s.params.bufDepth →
      exec .num2txt s = .next (bufferDone s ((input s).map fun w => 0x41 + s32 w % 26)))

/-- R155: HILL_ENC, with its errors in priority order. -/
def Obligations.HillEncFollowsItsRule : Prop :=
  ∀ (s : State) (c : List Int), c = lettersOf (input s) →
    (s.params.bufDepth < u32 s.inLen → failsWith .hillEnc s .length) ∧
    (u32 s.inLen ≤ s.params.bufDepth → u32 s.keyLen ≠ 4 → failsWith .hillEnc s .invalidKeyShape) ∧
    (u32 s.inLen ≤ s.params.bufDepth → u32 s.keyLen = 4 → c.length % 2 = 1 → s.ctrl.oddpol = .reject →
      failsWith .hillEnc s .oddLength) ∧
    (s.ParamsLegal → s.MemWf → u32 s.inLen ≤ s.params.bufDepth → u32 s.keyLen = 4 →
      c.length % 2 = 0 ∨ s.ctrl.oddpol ≠ .reject →
      ∃ c' o : List Int, adjusted s.ctrl.oddpol s.ctrl.filler.toNat .enc c c' ∧
        pairProduct ⟨s32 s.key0, s32 s.key1, s32 s.key2, s32 s.key3⟩ c' o ∧
        exec .hillEnc s = .next (bufferDone s o))

/-- R156 and R153: DET writes the exact determinant as 64-bit two's complement, low word in RES0. -/
def Obligations.DetFollowsItsRule : Prop :=
  ∀ s : State,
    (u32 s.keyLen ≠ 4 → failsWith .det s .invalidKeyShape) ∧
    (u32 s.keyLen = 4 → ∃ lo hi : Word, (hi ++ lo : BitVec 64).toInt = keyDet s ∧
      exec .det s = .next { s with res0 := lo, res1 := hi, status := finished s .ok })

/-- R157 and R154: MATINV26, with its errors in priority order. -/
def Obligations.Matinv26FollowsItsRule : Prop :=
  ∀ s : State,
    (u32 s.keyLen ≠ 4 → failsWith .matinv26 s .invalidKeyShape) ∧
    (u32 s.keyLen = 4 → Int.gcd (keyDet s % 26) 26 ≠ 1 → failsWith .matinv26 s .nonInvertibleKey) ∧
    (u32 s.keyLen = 4 → Int.gcd (keyDet s % 26) 26 = 1 → ∃ di : Int, isDetInverse s di ∧
      exec .matinv26 s = .next
        { s with
          res0 := word (s32 s.key3 * di % 26), res1 := word (-s32 s.key1 * di % 26)
          res2 := word (-s32 s.key2 * di % 26), res3 := word (s32 s.key0 * di % 26)
          res4 := word (keyDet s % 26), res5 := word di, status := finished s .ok })

/-- R158: HILL_DEC in both source forms, with its errors in priority order: the key is checked before the input. -/
def Obligations.HillDecFollowsItsRule : Prop :=
  ∀ (s : State) (src : Source) (c : List Int),
    c = (match src with | .text => lettersOf (input s) | .codes => (input s).map s32) →
    (s.params.bufDepth < u32 s.inLen → failsWith (.hillDec src) s .length) ∧
    (u32 s.inLen ≤ s.params.bufDepth → u32 s.keyLen ≠ 4 → failsWith (.hillDec src) s .invalidKeyShape) ∧
    (u32 s.inLen ≤ s.params.bufDepth → u32 s.keyLen = 4 → Int.gcd (keyDet s % 26) 26 ≠ 1 →
      failsWith (.hillDec src) s .nonInvertibleKey) ∧
    (u32 s.inLen ≤ s.params.bufDepth → u32 s.keyLen = 4 → Int.gcd (keyDet s % 26) 26 = 1 →
      c.length % 2 = 1 → s.ctrl.oddpol = .reject → failsWith (.hillDec src) s .oddLength) ∧
    (s.ParamsLegal → s.MemWf → u32 s.inLen ≤ s.params.bufDepth → u32 s.keyLen = 4 →
      Int.gcd (keyDet s % 26) 26 = 1 → c.length % 2 = 0 ∨ s.ctrl.oddpol ≠ .reject →
      ∃ (di : Int) (c' o : List Int), isDetInverse s di ∧
        adjusted s.ctrl.oddpol s.ctrl.filler.toNat .dec c c' ∧ pairProduct (keyInverse s di) c' o ∧
        exec (.hillDec src) s = .next (bufferDone s o))

/-- R181 and R180: RSA_KEYGEN, with its errors in priority order. -/
def Obligations.RsaKeygenFollowsItsRule : Prop :=
  ∀ (s : State) (p q e n phi : Int), s32 s.op0 = p → s32 s.op1 = q → s32 s.op2 = e → n = p * q →
    phi = (p - 1) * (q - 1) →
    (¬ INT32 n ∨ ¬ INT32 phi → failsWith .rsaKeygen s .range) ∧
    (INT32 n → INT32 phi → phi < 1 → failsWith .rsaKeygen s .badModulus) ∧
    (INT32 n → INT32 phi → 1 ≤ phi → Int.gcd (e % phi) phi ≠ 1 →
      failsWith .rsaKeygen s .nonInvertibleExponent) ∧
    (INT32 n → phi = 1 → exec .rsaKeygen s = .next
      { s with res0 := word n, res1 := 0#32, res2 := 1#32, status := finished s .ok }) ∧
    (INT32 n → INT32 phi → 2 ≤ phi → Int.gcd (e % phi) phi = 1 →
      ∃ d : Int, 1 ≤ d ∧ d < phi ∧ e * d % phi = 1 ∧ exec .rsaKeygen s = .next
        { s with res0 := word n, res1 := word d, res2 := word phi, status := finished s .ok })

/-- R182 and R183: RSA_ENC and RSA_DEC compute the same element-wise function, with its errors in priority order. -/
def Obligations.RsaEncAndDecFollowTheirRules : Prop :=
  ∀ (i : Instr) (s : State) (e n : Int), i = .rsaEnc ∨ i = .rsaDec → s32 s.op0 = e → s32 s.op1 = n →
    (s.params.bufDepth < u32 s.inLen → failsWith i s .length) ∧
    (u32 s.inLen ≤ s.params.bufDepth → n ≤ 0 → failsWith i s .badModulus) ∧
    (u32 s.inLen ≤ s.params.bufDepth → 1 ≤ n → e < 0 → failsWith i s .negativeExponent) ∧
    (s.MemWf → u32 s.inLen ≤ s.params.bufDepth → 1 ≤ n → 0 ≤ e →
      exec i s = .next (bufferDone s ((input s).map fun w => (s32 w % n) ^ e.toNat % n)))

/-! ### The shared functions and the laws -/

/-- R120: the computed inverse meets its defining rule on all integers. -/
def Obligations.ModInverseFnMeetsItsRule : Prop :=
  ∀ a m : Int, 1 ≤ m →
    (Int.gcd (a % m) m ≠ 1 → modInverseFn a m = none) ∧
    (m = 1 → modInverseFn a m = some 0) ∧
    (2 ≤ m → Int.gcd (a % m) m = 1 → ∃ b : Int, modInverseFn a m = some b ∧ 1 ≤ b ∧ b < m ∧
      a % m * b % m = 1 ∧ ∀ b' : Int, 1 ≤ b' → b' < m → a % m * b' % m = 1 → b' = b)

/-- R122: square-and-multiply gives the power of the normalised base, on all integers. -/
def Obligations.ModPowFnMeetsItsRule : Prop :=
  ∀ b e m : Int, 0 ≤ e → 1 ≤ m →
    modPowFn b e m = (b % m) ^ e.toNat % m ∧ 0 ≤ modPowFn b e m ∧ modPowFn b e m < m

/-- R127: MODPOW succeeds, and RES0 is the base multiplied exp times, reduced after each step, from 1 mod mod. -/
def Obligations.ModpowIsRepeatedMultiplication : Prop :=
  ∀ s : State, 0 ≤ s32 s.op1 → 1 ≤ s32 s.op2 →
    ∃ t, exec .modpow s = .next t ∧ t.status.err = .ok ∧ (u32 t.res0 : Int) < s32 s.op2 ∧
      (u32 t.res0 : Int) =
        (fun r => r * (s32 s.op0 % s32 s.op2) % s32 s.op2)^[(s32 s.op1).toNat] (1 % s32 s.op2)

/-- R151: the odd-length policies, by direction. -/
def Obligations.OddAdjustFollowsThePolicy : Prop :=
  ∀ (p : OddPolicy) (f : Int) (dir : Direction) (c : List Int),
    (∀ c', oddAdjust p f dir c = .ok c' ↔ adjusted p f dir c c') ∧
    (oddAdjust p f dir c = .error .oddLength ↔ c.length % 2 = 1 ∧ p = .reject)

/-- R153: the determinant of 32-bit entries stays within its bounds, so it fits 64-bit two's complement. -/
def Obligations.DeterminantStaysInBounds : Prop :=
  ∀ s : State, determinant s.keyMatrix = keyDet s ∧
    -(2 ^ 63) + 2 ^ 31 ≤ keyDet s ∧ keyDet s ≤ 2 ^ 63 - 2 ^ 31

/-- R161: when InvertMatrix26 succeeds, K · inv ≡ inv · K ≡ I (mod 26), and applying both returns the residues. -/
def Obligations.InverseMatrixUndoesTheKey : Prop :=
  ∀ (k : Mat2) (r : Inverse26), invertMatrix26 k = .ok r →
    ((k.m00 * r.inv.m00 + k.m01 * r.inv.m10) % 26 = 1 ∧ (k.m00 * r.inv.m01 + k.m01 * r.inv.m11) % 26 = 0 ∧
     (k.m10 * r.inv.m00 + k.m11 * r.inv.m10) % 26 = 0 ∧ (k.m10 * r.inv.m01 + k.m11 * r.inv.m11) % 26 = 1) ∧
    ((r.inv.m00 * k.m00 + r.inv.m01 * k.m10) % 26 = 1 ∧ (r.inv.m00 * k.m01 + r.inv.m01 * k.m11) % 26 = 0 ∧
     (r.inv.m10 * k.m00 + r.inv.m11 * k.m10) % 26 = 0 ∧ (r.inv.m10 * k.m01 + r.inv.m11 * k.m11) % 26 = 1) ∧
    ∀ c : List Int, c.length % 2 = 0 → applyPairs r.inv (applyPairs k c) = c.map (· % 26)

/-- R159: the output length of HILL_ENC and HILL_DEC by policy. -/
def Obligations.HillOutputLengthFollowsThePolicy : Prop :=
  ∀ (p : OddPolicy) (f : Int) (m : Mat2) (c : List Int),
    ((p = .reference ∨ p = .pad) → ∃ c', oddAdjust p f .enc c = .ok c' ∧
      (applyPairs m c').length = 2 * ((c.length + 1) / 2)) ∧
    (p = .truncate → ∃ c', oddAdjust p f .enc c = .ok c' ∧ (applyPairs m c').length = 2 * (c.length / 2)) ∧
    ((p = .reference ∨ p = .truncate) → ∃ c', oddAdjust p f .dec c = .ok c' ∧
      (applyPairs m c').length = 2 * (c.length / 2)) ∧
    (p = .pad → ∃ c', oddAdjust p f .dec c = .ok c' ∧
      (applyPairs m c').length = 2 * ((c.length + 1) / 2)) ∧
    (p = .reject → ∀ dir, (c.length % 2 = 0 → ∃ c', oddAdjust p f dir c = .ok c' ∧
        (applyPairs m c').length = c.length) ∧
      (c.length % 2 = 1 → oddAdjust p f dir c = .error .oddLength))

/-- R160: with an invertible key, HILL_ENC and then HILL_DEC (S = 0) of its output give back the adjusted codes: the codes
themselves when their number is even, with the filler under REFERENCE and PAD, without the last under TRUNCATE. -/
def Obligations.HillRoundTripGivesTheAdjustedCodes : Prop :=
  ∀ (s : State) (c' : List Int), s.ParamsLegal → s.MemWf → s.FillerLegal → u32 s.inLen ≤ s.params.bufDepth →
    u32 s.keyLen = 4 → Int.gcd (keyDet s % 26) 26 = 1 →
    adjusted s.ctrl.oddpol s.ctrl.filler.toNat .enc (lettersOf (input s)) c' →
    ∃ t v, exec .hillEnc s = .next t ∧ t.status.err = .ok ∧
      exec (.hillDec .codes) { t with inLen := t.outLen, mem := { t.mem with inBuf := t.mem.outBuf } } = .next v ∧
      v.status.err = .ok ∧ u32 v.outLen = c'.length ∧ v.mem.outBuf.take c'.length = c'.map word

/-- R144 (a) and (b): text to codes and back gives the upper-case letters; codes to text and back gives the residues. -/
def Obligations.CodecRoundTripsHold : Prop :=
  (∀ cs : List Byte, (textToCodes cs).map codeToLetter =
    (cs.filter isLetter).map fun c => if 0x61 ≤ c.toNat then (c.toNat : Int) - 0x20 else (c.toNat : Int)) ∧
  (∀ vs : List Int, textToCodes (vs.map fun v => textEntry (word (codeToLetter v))) = vs.map (· % 26))

/-- R184: the RSA round trip holds when p and q are distinct primes, and not for (5,5,3) or (4,3,5). -/
def Obligations.RsaRoundTripForDistinctPrimes : Prop :=
  (∀ (p q : Nat) (e v : Int) (k : KeyPair), p.Prime → q.Prime → p ≠ q → 0 ≤ e →
    generateKeyPairFn p q e = .ok k → 0 ≤ v → v < k.n →
    modPowFn (modPowFn v e k.n) k.d k.n = v) ∧
  (generateKeyPairFn 5 5 3 = .ok ⟨25, 11, 16⟩ ∧ modPowFn (modPowFn 5 3 25) 11 25 = 0) ∧
  (generateKeyPairFn 4 3 5 = .ok ⟨12, 5, 6⟩ ∧ modPowFn (modPowFn 2 5 12) 5 12 = 8)

/-! ### The register window -/

/-- R61: every aligned offset of the window has one name, and every register and buffer entry has its offset. -/
def Obligations.WindowMapIsOneToOne : Prop :=
  ∀ depth : Nat, depth ≤ 256 →
    (∀ off : Nat, off < 4096 → off % 4 = 0 →
      offsetOf (locate depth off) = off ∧ (locate depth off).wellFormed depth = true) ∧
    (∀ l : Loc, l.wellFormed depth = true → (∀ off, l ≠ .reserved off) → locate depth (offsetOf l) = l)

/-- R62, R63, R64 and R214: an access of another width or alignment gets a bus error, in either phase, and changes nothing. -/
def Obligations.OtherWidthsAndAlignmentsGetABusError : Prop :=
  ∀ (s : State) (off size : Nat) (d : Option Word), s.PortOpen → off < 4096 → size ≠ 4 ∨ off % 4 ≠ 0 →
    access ⟨s.params.base + off, size, d⟩ s =
      .next { s with reply := some (.busError (s.params.base + off)) }

/-- R232, and the model's choice of log 7: while reset is asserted an access in the window is refused; an address outside
the window faults in any state, because it does not reach the engine (R64). -/
def Obligations.AccessesThatAreNotServed : Prop :=
  ∀ (s : State) (a : Access),
    (a.addr < s.params.base ∨ s.params.base + 4096 ≤ a.addr →
      access a s = .fault (.outsideWindow a.addr)) ∧
    (s.params.base ≤ a.addr → a.addr < s.params.base + 4096 → s.resetAsserted = true →
      access a s = .refused (.accessDuringReset a.addr))

/-- R99 and R33: a CMD write while idle stores the word and issues it; while busy it is ignored and sets WERR. -/
def Obligations.CmdWriteIssuesWhenIdle : Prop :=
  ∀ (s : State) (v : Word), s.PortOpen →
    (s.status.busy = false → access (accessAt s 0x010 (some v)) s = .next
      { s with
        cmd := v
        status := { busy := true, done := false, werr := s.status.werr, err := .ok }
        reply := some .ack }) ∧
    (s.status.busy = true → access (accessAt s 0x010 (some v)) s = .next
      { s with status := { s.status with werr := true }, reply := some .ack })

/-- R72 and R237: while busy, every write except to STATUS is lost and sets WERR. -/
def Obligations.WriteWhileBusyIsDropped : Prop :=
  ∀ (s : State) (off : Nat) (v : Word), s.PortOpen → s.status.busy = true → off < 4096 → off % 4 = 0 →
    off ≠ 0x00C →
    access (accessAt s off (some v)) s = .next
      { s with status := { s.status with werr := true }, reply := some .ack }

/-- R72, STATUS line: a STATUS write, in either phase, clears DONE by bit 1 and WERR by bit 2 and changes nothing else. -/
def Obligations.StatusWriteIsWriteOneToClear : Prop :=
  ∀ (s : State) (v : Word), s.PortOpen →
    access (accessAt s 0x00C (some v)) s = .next
      { s with
        status :=
          { busy := s.status.busy
            done := if v.getLsbD 1 then false else s.status.done
            werr := if v.getLsbD 2 then false else s.status.werr
            err := s.status.err }
        reply := some .ack }

/-- R24, R25 and R27: an idle CTRL write. -/
def Obligations.CtrlWriteFollowsItsFields : Prop :=
  ∀ (s : State) (v : Word), s.PortOpen → s.status.busy = false →
    ∃ c : Ctrl, access (accessAt s 0x008 (some v)) s = .next { s with ctrl := c, reply := some .ack } ∧
      c.oddpol.bits.toNat = v.toNat % 4 ∧ c.ie = v.getLsbD 2 ∧
      (v.toNat / 2 ^ 8 % 2 ^ 5 ≤ 25 → c.filler.toNat = v.toNat / 2 ^ 8 % 2 ^ 5) ∧
      (26 ≤ v.toNat / 2 ^ 8 % 2 ^ 5 → c.filler = s.ctrl.filler)

/-- R34, R36, R37, R38 and R68: an idle write of a plain register or an IN_BUF entry stores all 32 bits. -/
def Obligations.PlainWritesStoreTheWord : Prop :=
  ∀ (s : State) (v : Word), s.PortOpen → s.status.busy = false →
    access (accessAt s 0x014 (some v)) s = .next { s with inLen := v, reply := some .ack } ∧
    access (accessAt s 0x01C (some v)) s = .next { s with keyLen := v, reply := some .ack } ∧
    access (accessAt s 0x020 (some v)) s = .next { s with op0 := v, reply := some .ack } ∧
    access (accessAt s 0x024 (some v)) s = .next { s with op1 := v, reply := some .ack } ∧
    access (accessAt s 0x028 (some v)) s = .next { s with op2 := v, reply := some .ack } ∧
    access (accessAt s 0x030 (some v)) s = .next { s with key0 := v, reply := some .ack } ∧
    access (accessAt s 0x034 (some v)) s = .next { s with key1 := v, reply := some .ack } ∧
    access (accessAt s 0x038 (some v)) s = .next { s with key2 := v, reply := some .ack } ∧
    access (accessAt s 0x03C (some v)) s = .next { s with key3 := v, reply := some .ack } ∧
    ∀ i, i < s.params.bufDepth → access (accessAt s (0x400 + 4 * i) (some v)) s = .next
      { s with mem := { s.mem with inBuf := s.mem.inBuf.set i v }, reply := some .ack }

/-- R67: an idle write to a read-only register is ignored, with a normal response. -/
def Obligations.ReadOnlyWritesAreIgnored : Prop :=
  ∀ (s : State) (off : Nat) (v : Word), s.PortOpen → s.status.busy = false →
    off ∈ [0x000, 0x004, 0x018, 0x040, 0x044, 0x048, 0x04C, 0x050, 0x054] ∨
      (∃ i, i < s.params.bufDepth ∧ off = 0x800 + 4 * i) →
    access (accessAt s off (some v)) s = .next { s with reply := some .ack }

/-- R66 with the reserved rows of R61: a reserved offset reads 0, ignores an idle write, and a busy write to it sets WERR. -/
def Obligations.ReservedOffsetsReadZeroAndIgnoreWrites : Prop :=
  ∀ (s : State) (off : Nat) (v : Word), s.PortOpen → off % 4 = 0 →
    off = 0x02C ∨ (0x058 ≤ off ∧ off ≤ 0x3FC) ∨ (0x400 + 4 * s.params.bufDepth ≤ off ∧ off ≤ 0x7FC) ∨
      (0x800 + 4 * s.params.bufDepth ≤ off ∧ off ≤ 0xBFC) ∨ (0xC00 ≤ off ∧ off ≤ 0xFFC) →
    access (accessAt s off none) s = .next { s with reply := some (.data 0#32) } ∧
    (s.status.busy = false → access (accessAt s off (some v)) s = .next { s with reply := some .ack }) ∧
    (s.status.busy = true → access (accessAt s off (some v)) s = .next
      { s with status := { s.status with werr := true }, reply := some .ack })

/-- R22, R23, R33 to R38, R40 to R42: what a read of each register and buffer entry returns, and that it changes nothing. -/
def Obligations.ReadsReturnTheWordHeld : Prop :=
  ∀ (s : State), s.PortOpen → s.MemWf →
    (∀ off w, (off, w) ∈ [(0x000, 0x43525950#32), (0x004, BitVec.ofNat 32 s.params.bufDepth),
        (0x010, s.cmd), (0x014, s.inLen), (0x01C, s.keyLen), (0x020, s.op0), (0x024, s.op1), (0x028, s.op2),
        (0x030, s.key0), (0x034, s.key1), (0x038, s.key2), (0x03C, s.key3)] →
      access (accessAt s off none) s = .next { s with reply := some (.data w) }) ∧
    (∀ i (h : i < s.mem.inBuf.length), access (accessAt s (0x400 + 4 * i) none) s = .next
      { s with reply := some (.data s.mem.inBuf[i]) }) ∧
    (s.status.busy = false →
      (∀ off w, (off, w) ∈ [(0x018, s.outLen), (0x040, s.res0), (0x044, s.res1), (0x048, s.res2),
          (0x04C, s.res3), (0x050, s.res4), (0x054, s.res5)] →
        access (accessAt s off none) s = .next { s with reply := some (.data w) }) ∧
      (∀ i (h : i < s.mem.outBuf.length), access (accessAt s (0x800 + 4 * i) none) s = .next
        { s with reply := some (.data s.mem.outBuf[i]) }))

/-- R24 and R28: how CTRL and STATUS read, field by field, the reserved bits as 0. -/
def Obligations.CtrlAndStatusReadByFields : Prop :=
  ∀ (s : State), s.PortOpen →
    (∃ w : Word, access (accessAt s 0x008 none) s = .next { s with reply := some (.data w) } ∧
      w.toNat = s.ctrl.oddpol.bits.toNat + 2 ^ 2 * s.ctrl.ie.toNat + 2 ^ 8 * s.ctrl.filler.toNat) ∧
    (∃ w : Word, access (accessAt s 0x00C none) s = .next { s with reply := some (.data w) } ∧
      w.toNat = s.status.busy.toNat + 2 * s.status.done.toNat + 2 ^ 2 * s.status.werr.toNat +
        2 ^ 8 * s.status.err.code.toNat)

/-- R73: a read of OUT_LEN, RES0..RES5 or OUT[i] while busy returns the next free value, and changes nothing of the engine. -/
def Obligations.BusyResultReadsAreUnspecified : Prop :=
  ∀ (s : State) (off : Nat), s.PortOpen → s.status.busy = true →
    off ∈ [0x018, 0x040, 0x044, 0x048, 0x04C, 0x050, 0x054] ∨
      (∃ i, i < s.params.bufDepth ∧ off = 0x800 + 4 * i) →
    access (accessAt s off none) s = .next
      { s with reply := some (.data (Config.freeWord s.draws)), draws := s.draws + 1 }

/-- R70: a read has no side effect on the engine. -/
def Obligations.ReadsHaveNoSideEffects : Prop :=
  ∀ (s t : State) (a : Access), a.data = none → access a s = .next t →
    t = { s with reply := t.reply, draws := t.draws }

/-! ### STATUS, interrupt, reset -/

/-- R29: BUSY is set by an accepted CMD write, cleared by completion, and changed by nothing else but reset. -/
def Obligations.BusyFollowsIssueAndCompletion : Prop :=
  ∀ s t : State, s.ParamsLegal → step s = .next t →
    (t.status.busy = true ↔ (∃ v, acceptsCommand s v) ∨
      (s.status.busy = true ∧ ¬ completesCommand s ∧ (nextMove s).1 ≠ .resetAssert))

/-- R30 and R216: DONE is set by completion alone, and cleared by a STATUS write with bit 1, by the next accepted CMD
write, and by reset alone. -/
def Obligations.DoneFollowsCompletionAndAcknowledge : Prop :=
  ∀ s t : State, s.ParamsLegal → step s = .next t →
    (t.status.done = true ↔ completesCommand s ∨
      (s.status.done = true ∧ (∀ v, ¬ acceptsCommand s v) ∧ ¬ clearsBit s 1 ∧ (nextMove s).1 ≠ .resetAssert))

/-- R31: WERR is set by a dropped write, stays until a STATUS write with bit 2 or reset, and issue and completion do not
change it. -/
def Obligations.WerrIsStickyUntilCleared : Prop :=
  ∀ s t : State, s.ParamsLegal → step s = .next t →
    (t.status.werr = true ↔ dropsWrite s ∨
      (s.status.werr = true ∧ ¬ clearsBit s 2 ∧ (nextMove s).1 ≠ .resetAssert))

/-- R215 and R45: irq is CTRL.IE AND STATUS.DONE: every completion raises it exactly when IE is set, issue drops it, and an
acknowledge with bit 1 drops it. -/
def Obligations.IrqFollowsCompletion : Prop :=
  (∀ s : State, s.irq = true ↔ s.ctrl.ie = true ∧ s.status.done = true) ∧
  (∀ (i : Instr) (s t : State), exec i s = .next t → t.irq = s.ctrl.ie) ∧
  (∀ (s t : State) (v : Word), s.PortOpen → s.status.busy = false →
    access (accessAt s 0x010 (some v)) s = .next t → t.irq = false) ∧
  (∀ (s t : State) (v : Word), s.PortOpen → v.getLsbD 1 = true →
    access (accessAt s 0x00C (some v)) s = .next t → t.irq = false)

/-- R201 and R212: the code of every error, and that STATUS.ERR never reads above 0x0A. -/
def Obligations.ErrorCodesAreTheTable : Prop :=
  Completion.ok.code = 0x00#8 ∧
  (Completion.err .invalidKeyShape).code = 0x01#8 ∧ (Completion.err .nonInvertibleKey).code = 0x02#8 ∧
  (Completion.err .nonInvertibleExponent).code = 0x03#8 ∧ (Completion.err .nonInvertible).code = 0x04#8 ∧
  (Completion.err .badModulus).code = 0x05#8 ∧ (Completion.err .negativeExponent).code = 0x06#8 ∧
  (Completion.err .oddLength).code = 0x07#8 ∧ (Completion.err .length).code = 0x08#8 ∧
  (Completion.err .range).code = 0x09#8 ∧ (Completion.err .illegalCmd).code = 0x0A#8 ∧
  ∀ s : State, s.status.toWord.toNat / 2 ^ 8 % 2 ^ 8 ≤ 0x0A

/-- R230: asserting reset, in either phase, gives every register its reset value, abandons a command in flight, and keeps
ID and CAP. The model's choices here: that reset stays asserted until a move releases it, which changes nothing else
(log 8), and that BASE, BUF_DEPTH, the hosts, the turns to come and the last reply stay as they are (log 19). The buffers
keep their size; their contents are free. -/
def Obligations.ResetAssertAndReleaseHaveTheirEffect : Prop :=
  (∀ (s : State) (ts : List Turn), s.turns = .resetAssert :: ts →
    ∃ t, step s = .next t ∧ t.params = s.params ∧
      t.ctrl.toWord = 0x00001700#32 ∧ t.status.toWord = 0#32 ∧ t.cmd = 0#32 ∧
      t.inLen = 0#32 ∧ t.outLen = 0#32 ∧ t.keyLen = 0#32 ∧ t.op0 = 0#32 ∧ t.op1 = 0#32 ∧ t.op2 = 0#32 ∧
      t.key0 = 0#32 ∧ t.key1 = 0#32 ∧ t.key2 = 0#32 ∧ t.key3 = 0#32 ∧
      t.res0 = 0#32 ∧ t.res1 = 0#32 ∧ t.res2 = 0#32 ∧ t.res3 = 0#32 ∧ t.res4 = 0#32 ∧ t.res5 = 0#32 ∧
      t.irq = false ∧ t.wordAt .id = 0x43525950#32 ∧ t.wordAt .cap = s.wordAt .cap ∧
      t.mem.wf s.params.bufDepth = true ∧ t.resetAsserted = true ∧
      t.reply = s.reply ∧ t.hosts = s.hosts ∧ t.turns = ts) ∧
  (∀ (s : State) (ts : List Turn), s.turns = .resetRelease :: ts →
    step s = .next { s with turns := ts, resetAsserted := false })

/-- R47: the register values right after reset, BUF_DEPTH being the default of R7. -/
def Obligations.ResetStateHasTheStatedValues : Prop :=
  State.reset.ctrl.toWord = 0x00001700#32 ∧ State.reset.status.toWord = 0#32 ∧
  State.reset.wordAt .id = 0x43525950#32 ∧ State.reset.wordAt .cap = 0x00000100#32 ∧
  State.reset.cmd = 0#32 ∧ State.reset.inLen = 0#32 ∧ State.reset.outLen = 0#32 ∧ State.reset.keyLen = 0#32 ∧
  (∀ k, State.reset.wordAt (.op k) = 0#32) ∧ (∀ k, State.reset.wordAt (.key k) = 0#32) ∧
  (∀ k, State.reset.wordAt (.res k) = 0#32) ∧ State.reset.irq = false ∧ State.reset.status.busy = false

/-! ### Invariants -/

/-- The invariant holds after reset, for all legal parameters and all hosts and orders to come, and of State.reset. -/
def Obligations.BootMeetsTheInvariant : Prop :=
  (∀ (p : Params) (hosts : List HostAgent) (turns : List Turn), p.wellFormed = true →
    (State.boot p hosts turns).Inv) ∧ State.reset.Inv

/-- Every step keeps the invariant. -/
def Obligations.StepKeepsTheInvariant : Prop :=
  ∀ s t : State, s.Inv → step s = .next t → t.Inv

/-- R22, R23 and R7: ID, CAP and BASE never change, over any run. -/
def Obligations.IdentificationNeverChanges : Prop :=
  ∀ s t : State, Reaches s t →
    t.params = s.params ∧ t.wordAt .id = 0x43525950#32 ∧ t.wordAt .cap = s.wordAt .cap

/-- Where a step stops. The only fault is an access outside the window, of which the spec says nothing (the fault is the
model's choice, log 7). The only refusals are an access while reset is asserted (R232) and a host branch to a missing label
(the model's choice, log 14). In particular no engine move and no reset move ever stops. -/
def Obligations.StepsStopOnlyAtAccessesAndMissingLabels : Prop :=
  ∀ s : State,
    (∀ f, step s = .fault f → ∃ a, nextAccess s = some a ∧ f = .outsideWindow a.addr ∧
      (a.addr < s.params.base ∨ s.params.base + 4096 ≤ a.addr)) ∧
    (∀ r, step s = .refused r →
      (∃ a, nextAccess s = some a ∧ r = .accessDuringReset a.addr ∧ s.resetAsserted = true) ∨
      (∃ k h l, (nextMove s).1 = .host k ∧ s.hosts[k]? = some h ∧ r = .noSuchLabel l ∧
        .label l ∉ h.prog))

/-! ### The host notation -/

/-- R105, line by line: `WR` is one bus write of its data; `RD` is one bus read into its variable; `BSET`, `BCLR` and `BNE`
branch exactly when their condition holds; `JMP` branches; `HALT` stops the host at its line; a label line does nothing.
A READBUF's reads (R106) are one bus read of OUT[i] into r[i] for each i below r.len. The model's choices here: that a line
takes one turn, that an access and the host's advance are one step, that a branch goes to the first line with its label and
is refused when there is none, and that a host past its last line does nothing (log 14); that READBUF's reads take one turn
each and one more to end (log 15). -/
def Obligations.HostLinesFollowTheirRule : Prop :=
  ∀ (s : State) (k : Nat) (h : HostAgent), s.hosts[k]? = some h →
    (∀ reg v t, h.prog[h.pc]? = some (.wr reg v) →
      access (accessAt s (offsetOf reg) (some (h.eval v))) s = .next t →
      hostTurn k s = .next { t with hosts := s.hosts.set k { h with pc := h.pc + 1 } }) ∧
    (∀ reg x w t, h.prog[h.pc]? = some (.rd reg x) →
      access (accessAt s (offsetOf reg) none) s = .next t → t.reply = some (.data w) →
      ∃ h', hostTurn k s = .next { t with hosts := s.hosts.set k h' } ∧
        h' = { h with pc := h.pc + 1, vars := h'.vars } ∧ h'.get x = w ∧ ∀ y, y ≠ x → h'.get y = h.get y) ∧
    (∀ x b l, h.prog[h.pc]? = some (.bset x b l) →
      ((h.get x).getLsbD b.val = true → branchesTo l k h s) ∧
      ((h.get x).getLsbD b.val = false → goesOn k h s)) ∧
    (∀ x b l, h.prog[h.pc]? = some (.bclr x b l) →
      ((h.get x).getLsbD b.val = false → branchesTo l k h s) ∧
      ((h.get x).getLsbD b.val = true → goesOn k h s)) ∧
    (∀ x imm l, h.prog[h.pc]? = some (.bne x imm l) →
      (h.get x ≠ imm → branchesTo l k h s) ∧ (h.get x = imm → goesOn k h s)) ∧
    (∀ l, h.prog[h.pc]? = some (.jmp l) → branchesTo l k h s) ∧
    (h.prog[h.pc]? = some .halt → hostTurn k s = .next s) ∧
    (∀ l, h.prog[h.pc]? = some (.label l) → goesOn k h s) ∧
    (h.prog[h.pc]? = none → hostTurn k s = .next s) ∧
    (∀ n w t, h.prog[h.pc]? = some (.rdElems n) → h.reads < u32 (h.get (.len n)) →
      access (accessAt s (0x800 + 4 * h.reads) none) s = .next t → t.reply = some (.data w) →
      ∃ h', hostTurn k s = .next { t with hosts := s.hosts.set k h' } ∧
        h' = { h with reads := h.reads + 1, vars := h'.vars } ∧ h'.get (.elem n h.reads) = w ∧
        ∀ y, y ≠ .elem n h.reads → h'.get y = h.get y) ∧
    (∀ n, h.prog[h.pc]? = some (.rdElems n) → u32 (h.get (.len n)) ≤ h.reads →
      hostTurn k s = .next { s with hosts := s.hosts.set k { h with pc := h.pc + 1, reads := 0 } })

/-- R106: each pseudo-instruction expands to the lines that R106 lists, in that order, and a program expands line by line.
A source program whose plain lines are well formed and branch to its own labels expands to a well-formed host program:
every branch has its label, every name lies in the window, no fresh label stands twice, and the program's own labels stand
as often as in the source. The fresh labels and READBUF's line of reads are the model's choice (log 15). -/
def Obligations.PseudoInstructionsExpandToTheirLines : Prop :=
  (∀ fresh : Nat,
    (∀ l, expand fresh [.line l] = [l]) ∧
    expand fresh [.wait] = [.label (.fresh fresh), .rd .status .t, .bset .t 0 (.fresh fresh)] ∧
    (∀ i, expand fresh [.run i] = .wr .cmd (.imm (encode i)) :: expand fresh [.wait]) ∧
    (∀ vs : List HostVal, (expand fresh [.loadBuf vs]).length = vs.length + 1 ∧
      (∀ i (hi : i < vs.length), (expand fresh [.loadBuf vs])[i]? = some (.wr (.inBuf i) vs[i])) ∧
      (expand fresh [.loadBuf vs])[vs.length]? = some (.wr .inLen (.imm (word vs.length)))) ∧
    (∀ text : String, expand fresh [.loadText text] =
      expand fresh [.loadBuf (text.toList.map fun c => .imm (BitVec.ofNat 32 c.toNat))]) ∧
    (∀ a b c d, expand fresh [.setKey a b c d] =
      [.wr (.key 0) a, .wr (.key 1) b, .wr (.key 2) c, .wr (.key 3) d, .wr .keyLen (.imm 4#32)]) ∧
    (∀ n, expand fresh [.readBuf n] = [.rd .outLen (.len n), .rdElems n]) ∧
    (∀ x, expand fresh [.check x] = [.rd .status x]) ∧
    (∀ ps qs, ∃ fresh', fresh ≤ fresh' ∧ expand fresh (ps ++ qs) = expand fresh ps ++ expand fresh' qs)) ∧
  (∀ (depth fresh : Nat) (ps : List Pseudo),
    (∀ l, Pseudo.line l ∈ ps →
      (∀ reg, l.loc = some reg → reg.wellFormed depth = true) ∧
      (∀ t, l.target = some t → (∃ n, t = .user n) ∧ Pseudo.line (.label t) ∈ ps) ∧
      ∀ n, l ≠ .label (.fresh n)) →
    (∀ vs, Pseudo.loadBuf vs ∈ ps → vs.length ≤ depth) →
    (∀ text, Pseudo.loadText text ∈ ps → text.length ≤ depth) →
    hostProgramWellFormed depth (expand fresh ps) = true ∧
    (∀ n, (expand fresh ps).count (.label (.fresh n)) ≤ 1) ∧
    ∀ n, (expand fresh ps).count (.label (.user n)) = ps.count (.line (.label (.user n))))
end

