-- ==== Sys2Proof/Laws/State.lean ====
section
/-!
SUPPORT. One lemma per field per update of the state, so that no later proof unfolds a record update.
-/

namespace Sys2Proof.Machine

/-! ### `complete` -/

@[simp] theorem complete_params (c : Completion) (s : State) : (complete c s).params = s.params := rfl
@[simp] theorem complete_ctrl (c : Completion) (s : State) : (complete c s).ctrl = s.ctrl := rfl
@[simp] theorem complete_status (c : Completion) (s : State) : (complete c s).status = s.status.completed c := rfl
@[simp] theorem complete_cmd (c : Completion) (s : State) : (complete c s).cmd = s.cmd := rfl
@[simp] theorem complete_inLen (c : Completion) (s : State) : (complete c s).inLen = s.inLen := rfl
@[simp] theorem complete_outLen (c : Completion) (s : State) : (complete c s).outLen = s.outLen := rfl
@[simp] theorem complete_keyLen (c : Completion) (s : State) : (complete c s).keyLen = s.keyLen := rfl
@[simp] theorem complete_op0 (c : Completion) (s : State) : (complete c s).op0 = s.op0 := rfl
@[simp] theorem complete_op1 (c : Completion) (s : State) : (complete c s).op1 = s.op1 := rfl
@[simp] theorem complete_op2 (c : Completion) (s : State) : (complete c s).op2 = s.op2 := rfl
@[simp] theorem complete_key0 (c : Completion) (s : State) : (complete c s).key0 = s.key0 := rfl
@[simp] theorem complete_key1 (c : Completion) (s : State) : (complete c s).key1 = s.key1 := rfl
@[simp] theorem complete_key2 (c : Completion) (s : State) : (complete c s).key2 = s.key2 := rfl
@[simp] theorem complete_key3 (c : Completion) (s : State) : (complete c s).key3 = s.key3 := rfl
@[simp] theorem complete_res0 (c : Completion) (s : State) : (complete c s).res0 = s.res0 := rfl
@[simp] theorem complete_res1 (c : Completion) (s : State) : (complete c s).res1 = s.res1 := rfl
@[simp] theorem complete_res2 (c : Completion) (s : State) : (complete c s).res2 = s.res2 := rfl
@[simp] theorem complete_res3 (c : Completion) (s : State) : (complete c s).res3 = s.res3 := rfl
@[simp] theorem complete_res4 (c : Completion) (s : State) : (complete c s).res4 = s.res4 := rfl
@[simp] theorem complete_res5 (c : Completion) (s : State) : (complete c s).res5 = s.res5 := rfl
@[simp] theorem complete_mem (c : Completion) (s : State) : (complete c s).mem = s.mem := rfl
@[simp] theorem complete_resetAsserted (c : Completion) (s : State) : (complete c s).resetAsserted = s.resetAsserted := rfl
@[simp] theorem complete_reply (c : Completion) (s : State) : (complete c s).reply = s.reply := rfl
@[simp] theorem complete_draws (c : Completion) (s : State) : (complete c s).draws = s.draws := rfl
@[simp] theorem complete_hosts (c : Completion) (s : State) : (complete c s).hosts = s.hosts := rfl
@[simp] theorem complete_turns (c : Completion) (s : State) : (complete c s).turns = s.turns := rfl

/-! ### `issue` -/

@[simp] theorem issue_params (v : Word) (s : State) : (issue v s).params = s.params := rfl
@[simp] theorem issue_ctrl (v : Word) (s : State) : (issue v s).ctrl = s.ctrl := rfl
@[simp] theorem issue_status (v : Word) (s : State) : (issue v s).status = s.status.issued := rfl
@[simp] theorem issue_cmd (v : Word) (s : State) : (issue v s).cmd = v := rfl
@[simp] theorem issue_inLen (v : Word) (s : State) : (issue v s).inLen = s.inLen := rfl
@[simp] theorem issue_outLen (v : Word) (s : State) : (issue v s).outLen = s.outLen := rfl
@[simp] theorem issue_keyLen (v : Word) (s : State) : (issue v s).keyLen = s.keyLen := rfl
@[simp] theorem issue_op0 (v : Word) (s : State) : (issue v s).op0 = s.op0 := rfl
@[simp] theorem issue_op1 (v : Word) (s : State) : (issue v s).op1 = s.op1 := rfl
@[simp] theorem issue_op2 (v : Word) (s : State) : (issue v s).op2 = s.op2 := rfl
@[simp] theorem issue_key0 (v : Word) (s : State) : (issue v s).key0 = s.key0 := rfl
@[simp] theorem issue_key1 (v : Word) (s : State) : (issue v s).key1 = s.key1 := rfl
@[simp] theorem issue_key2 (v : Word) (s : State) : (issue v s).key2 = s.key2 := rfl
@[simp] theorem issue_key3 (v : Word) (s : State) : (issue v s).key3 = s.key3 := rfl
@[simp] theorem issue_res0 (v : Word) (s : State) : (issue v s).res0 = s.res0 := rfl
@[simp] theorem issue_res1 (v : Word) (s : State) : (issue v s).res1 = s.res1 := rfl
@[simp] theorem issue_res2 (v : Word) (s : State) : (issue v s).res2 = s.res2 := rfl
@[simp] theorem issue_res3 (v : Word) (s : State) : (issue v s).res3 = s.res3 := rfl
@[simp] theorem issue_res4 (v : Word) (s : State) : (issue v s).res4 = s.res4 := rfl
@[simp] theorem issue_res5 (v : Word) (s : State) : (issue v s).res5 = s.res5 := rfl
@[simp] theorem issue_mem (v : Word) (s : State) : (issue v s).mem = s.mem := rfl
@[simp] theorem issue_resetAsserted (v : Word) (s : State) : (issue v s).resetAsserted = s.resetAsserted := rfl
@[simp] theorem issue_reply (v : Word) (s : State) : (issue v s).reply = s.reply := rfl
@[simp] theorem issue_draws (v : Word) (s : State) : (issue v s).draws = s.draws := rfl
@[simp] theorem issue_hosts (v : Word) (s : State) : (issue v s).hosts = s.hosts := rfl
@[simp] theorem issue_turns (v : Word) (s : State) : (issue v s).turns = s.turns := rfl

/-! ### `acknowledge` -/

@[simp] theorem acknowledge_params (v : Word) (s : State) : (acknowledge v s).params = s.params := rfl
@[simp] theorem acknowledge_ctrl (v : Word) (s : State) : (acknowledge v s).ctrl = s.ctrl := rfl
@[simp] theorem acknowledge_status (v : Word) (s : State) : (acknowledge v s).status = s.status.write v := rfl
@[simp] theorem acknowledge_cmd (v : Word) (s : State) : (acknowledge v s).cmd = s.cmd := rfl
@[simp] theorem acknowledge_inLen (v : Word) (s : State) : (acknowledge v s).inLen = s.inLen := rfl
@[simp] theorem acknowledge_outLen (v : Word) (s : State) : (acknowledge v s).outLen = s.outLen := rfl
@[simp] theorem acknowledge_keyLen (v : Word) (s : State) : (acknowledge v s).keyLen = s.keyLen := rfl
@[simp] theorem acknowledge_op0 (v : Word) (s : State) : (acknowledge v s).op0 = s.op0 := rfl
@[simp] theorem acknowledge_op1 (v : Word) (s : State) : (acknowledge v s).op1 = s.op1 := rfl
@[simp] theorem acknowledge_op2 (v : Word) (s : State) : (acknowledge v s).op2 = s.op2 := rfl
@[simp] theorem acknowledge_key0 (v : Word) (s : State) : (acknowledge v s).key0 = s.key0 := rfl
@[simp] theorem acknowledge_key1 (v : Word) (s : State) : (acknowledge v s).key1 = s.key1 := rfl
@[simp] theorem acknowledge_key2 (v : Word) (s : State) : (acknowledge v s).key2 = s.key2 := rfl
@[simp] theorem acknowledge_key3 (v : Word) (s : State) : (acknowledge v s).key3 = s.key3 := rfl
@[simp] theorem acknowledge_res0 (v : Word) (s : State) : (acknowledge v s).res0 = s.res0 := rfl
@[simp] theorem acknowledge_res1 (v : Word) (s : State) : (acknowledge v s).res1 = s.res1 := rfl
@[simp] theorem acknowledge_res2 (v : Word) (s : State) : (acknowledge v s).res2 = s.res2 := rfl
@[simp] theorem acknowledge_res3 (v : Word) (s : State) : (acknowledge v s).res3 = s.res3 := rfl
@[simp] theorem acknowledge_res4 (v : Word) (s : State) : (acknowledge v s).res4 = s.res4 := rfl
@[simp] theorem acknowledge_res5 (v : Word) (s : State) : (acknowledge v s).res5 = s.res5 := rfl
@[simp] theorem acknowledge_mem (v : Word) (s : State) : (acknowledge v s).mem = s.mem := rfl
@[simp] theorem acknowledge_resetAsserted (v : Word) (s : State) : (acknowledge v s).resetAsserted = s.resetAsserted := rfl
@[simp] theorem acknowledge_reply (v : Word) (s : State) : (acknowledge v s).reply = s.reply := rfl
@[simp] theorem acknowledge_draws (v : Word) (s : State) : (acknowledge v s).draws = s.draws := rfl
@[simp] theorem acknowledge_hosts (v : Word) (s : State) : (acknowledge v s).hosts = s.hosts := rfl
@[simp] theorem acknowledge_turns (v : Word) (s : State) : (acknowledge v s).turns = s.turns := rfl

/-! ### `setOutput` -/

@[simp] theorem setOutput_params (ws : List Word) (s : State) : (s.setOutput ws).params = s.params := rfl
@[simp] theorem setOutput_ctrl (ws : List Word) (s : State) : (s.setOutput ws).ctrl = s.ctrl := rfl
@[simp] theorem setOutput_status (ws : List Word) (s : State) : (s.setOutput ws).status = s.status := rfl
@[simp] theorem setOutput_cmd (ws : List Word) (s : State) : (s.setOutput ws).cmd = s.cmd := rfl
@[simp] theorem setOutput_inLen (ws : List Word) (s : State) : (s.setOutput ws).inLen = s.inLen := rfl
@[simp] theorem setOutput_outLen (ws : List Word) (s : State) : (s.setOutput ws).outLen = word ws.length := rfl
@[simp] theorem setOutput_keyLen (ws : List Word) (s : State) : (s.setOutput ws).keyLen = s.keyLen := rfl
@[simp] theorem setOutput_op0 (ws : List Word) (s : State) : (s.setOutput ws).op0 = s.op0 := rfl
@[simp] theorem setOutput_op1 (ws : List Word) (s : State) : (s.setOutput ws).op1 = s.op1 := rfl
@[simp] theorem setOutput_op2 (ws : List Word) (s : State) : (s.setOutput ws).op2 = s.op2 := rfl
@[simp] theorem setOutput_key0 (ws : List Word) (s : State) : (s.setOutput ws).key0 = s.key0 := rfl
@[simp] theorem setOutput_key1 (ws : List Word) (s : State) : (s.setOutput ws).key1 = s.key1 := rfl
@[simp] theorem setOutput_key2 (ws : List Word) (s : State) : (s.setOutput ws).key2 = s.key2 := rfl
@[simp] theorem setOutput_key3 (ws : List Word) (s : State) : (s.setOutput ws).key3 = s.key3 := rfl
@[simp] theorem setOutput_res0 (ws : List Word) (s : State) : (s.setOutput ws).res0 = s.res0 := rfl
@[simp] theorem setOutput_res1 (ws : List Word) (s : State) : (s.setOutput ws).res1 = s.res1 := rfl
@[simp] theorem setOutput_res2 (ws : List Word) (s : State) : (s.setOutput ws).res2 = s.res2 := rfl
@[simp] theorem setOutput_res3 (ws : List Word) (s : State) : (s.setOutput ws).res3 = s.res3 := rfl
@[simp] theorem setOutput_res4 (ws : List Word) (s : State) : (s.setOutput ws).res4 = s.res4 := rfl
@[simp] theorem setOutput_res5 (ws : List Word) (s : State) : (s.setOutput ws).res5 = s.res5 := rfl
@[simp] theorem setOutput_mem (ws : List Word) (s : State) : (s.setOutput ws).mem = s.mem.writeOut ws := rfl
@[simp] theorem setOutput_resetAsserted (ws : List Word) (s : State) : (s.setOutput ws).resetAsserted = s.resetAsserted := rfl
@[simp] theorem setOutput_reply (ws : List Word) (s : State) : (s.setOutput ws).reply = s.reply := rfl
@[simp] theorem setOutput_draws (ws : List Word) (s : State) : (s.setOutput ws).draws = s.draws := rfl
@[simp] theorem setOutput_hosts (ws : List Word) (s : State) : (s.setOutput ws).hosts = s.hosts := rfl
@[simp] theorem setOutput_turns (ws : List Word) (s : State) : (s.setOutput ws).turns = s.turns := rfl

/-! ### `setHost` -/

@[simp] theorem setHost_params (k : Nat) (h : HostAgent) (s : State) : (s.setHost k h).params = s.params := rfl
@[simp] theorem setHost_ctrl (k : Nat) (h : HostAgent) (s : State) : (s.setHost k h).ctrl = s.ctrl := rfl
@[simp] theorem setHost_status (k : Nat) (h : HostAgent) (s : State) : (s.setHost k h).status = s.status := rfl
@[simp] theorem setHost_cmd (k : Nat) (h : HostAgent) (s : State) : (s.setHost k h).cmd = s.cmd := rfl
@[simp] theorem setHost_inLen (k : Nat) (h : HostAgent) (s : State) : (s.setHost k h).inLen = s.inLen := rfl
@[simp] theorem setHost_outLen (k : Nat) (h : HostAgent) (s : State) : (s.setHost k h).outLen = s.outLen := rfl
@[simp] theorem setHost_keyLen (k : Nat) (h : HostAgent) (s : State) : (s.setHost k h).keyLen = s.keyLen := rfl
@[simp] theorem setHost_op0 (k : Nat) (h : HostAgent) (s : State) : (s.setHost k h).op0 = s.op0 := rfl
@[simp] theorem setHost_op1 (k : Nat) (h : HostAgent) (s : State) : (s.setHost k h).op1 = s.op1 := rfl
@[simp] theorem setHost_op2 (k : Nat) (h : HostAgent) (s : State) : (s.setHost k h).op2 = s.op2 := rfl
@[simp] theorem setHost_key0 (k : Nat) (h : HostAgent) (s : State) : (s.setHost k h).key0 = s.key0 := rfl
@[simp] theorem setHost_key1 (k : Nat) (h : HostAgent) (s : State) : (s.setHost k h).key1 = s.key1 := rfl
@[simp] theorem setHost_key2 (k : Nat) (h : HostAgent) (s : State) : (s.setHost k h).key2 = s.key2 := rfl
@[simp] theorem setHost_key3 (k : Nat) (h : HostAgent) (s : State) : (s.setHost k h).key3 = s.key3 := rfl
@[simp] theorem setHost_res0 (k : Nat) (h : HostAgent) (s : State) : (s.setHost k h).res0 = s.res0 := rfl
@[simp] theorem setHost_res1 (k : Nat) (h : HostAgent) (s : State) : (s.setHost k h).res1 = s.res1 := rfl
@[simp] theorem setHost_res2 (k : Nat) (h : HostAgent) (s : State) : (s.setHost k h).res2 = s.res2 := rfl
@[simp] theorem setHost_res3 (k : Nat) (h : HostAgent) (s : State) : (s.setHost k h).res3 = s.res3 := rfl
@[simp] theorem setHost_res4 (k : Nat) (h : HostAgent) (s : State) : (s.setHost k h).res4 = s.res4 := rfl
@[simp] theorem setHost_res5 (k : Nat) (h : HostAgent) (s : State) : (s.setHost k h).res5 = s.res5 := rfl
@[simp] theorem setHost_mem (k : Nat) (h : HostAgent) (s : State) : (s.setHost k h).mem = s.mem := rfl
@[simp] theorem setHost_resetAsserted (k : Nat) (h : HostAgent) (s : State) : (s.setHost k h).resetAsserted = s.resetAsserted := rfl
@[simp] theorem setHost_reply (k : Nat) (h : HostAgent) (s : State) : (s.setHost k h).reply = s.reply := rfl
@[simp] theorem setHost_draws (k : Nat) (h : HostAgent) (s : State) : (s.setHost k h).draws = s.draws := rfl
@[simp] theorem setHost_hosts (k : Nat) (h : HostAgent) (s : State) : (s.setHost k h).hosts = s.hosts.set k h := rfl
@[simp] theorem setHost_turns (k : Nat) (h : HostAgent) (s : State) : (s.setHost k h).turns = s.turns := rfl

/-! ### `releaseReset` -/

@[simp] theorem releaseReset_params (s : State) : (releaseReset s).params = s.params := rfl
@[simp] theorem releaseReset_ctrl (s : State) : (releaseReset s).ctrl = s.ctrl := rfl
@[simp] theorem releaseReset_status (s : State) : (releaseReset s).status = s.status := rfl
@[simp] theorem releaseReset_cmd (s : State) : (releaseReset s).cmd = s.cmd := rfl
@[simp] theorem releaseReset_inLen (s : State) : (releaseReset s).inLen = s.inLen := rfl
@[simp] theorem releaseReset_outLen (s : State) : (releaseReset s).outLen = s.outLen := rfl
@[simp] theorem releaseReset_keyLen (s : State) : (releaseReset s).keyLen = s.keyLen := rfl
@[simp] theorem releaseReset_op0 (s : State) : (releaseReset s).op0 = s.op0 := rfl
@[simp] theorem releaseReset_op1 (s : State) : (releaseReset s).op1 = s.op1 := rfl
@[simp] theorem releaseReset_op2 (s : State) : (releaseReset s).op2 = s.op2 := rfl
@[simp] theorem releaseReset_key0 (s : State) : (releaseReset s).key0 = s.key0 := rfl
@[simp] theorem releaseReset_key1 (s : State) : (releaseReset s).key1 = s.key1 := rfl
@[simp] theorem releaseReset_key2 (s : State) : (releaseReset s).key2 = s.key2 := rfl
@[simp] theorem releaseReset_key3 (s : State) : (releaseReset s).key3 = s.key3 := rfl
@[simp] theorem releaseReset_res0 (s : State) : (releaseReset s).res0 = s.res0 := rfl
@[simp] theorem releaseReset_res1 (s : State) : (releaseReset s).res1 = s.res1 := rfl
@[simp] theorem releaseReset_res2 (s : State) : (releaseReset s).res2 = s.res2 := rfl
@[simp] theorem releaseReset_res3 (s : State) : (releaseReset s).res3 = s.res3 := rfl
@[simp] theorem releaseReset_res4 (s : State) : (releaseReset s).res4 = s.res4 := rfl
@[simp] theorem releaseReset_res5 (s : State) : (releaseReset s).res5 = s.res5 := rfl
@[simp] theorem releaseReset_mem (s : State) : (releaseReset s).mem = s.mem := rfl
@[simp] theorem releaseReset_resetAsserted (s : State) : (releaseReset s).resetAsserted = false := rfl
@[simp] theorem releaseReset_reply (s : State) : (releaseReset s).reply = s.reply := rfl
@[simp] theorem releaseReset_draws (s : State) : (releaseReset s).draws = s.draws := rfl
@[simp] theorem releaseReset_hosts (s : State) : (releaseReset s).hosts = s.hosts := rfl
@[simp] theorem releaseReset_turns (s : State) : (releaseReset s).turns = s.turns := rfl

/-! ### RES writes -/

@[simp] theorem setRes_params (s : State) (r : ResReg) (w : Word) : (s.setRes r w).params = s.params := by
  cases r <;> rfl
@[simp] theorem setRes_ctrl (s : State) (r : ResReg) (w : Word) : (s.setRes r w).ctrl = s.ctrl := by
  cases r <;> rfl
@[simp] theorem setRes_status (s : State) (r : ResReg) (w : Word) : (s.setRes r w).status = s.status := by
  cases r <;> rfl
@[simp] theorem setRes_cmd (s : State) (r : ResReg) (w : Word) : (s.setRes r w).cmd = s.cmd := by
  cases r <;> rfl
@[simp] theorem setRes_inLen (s : State) (r : ResReg) (w : Word) : (s.setRes r w).inLen = s.inLen := by
  cases r <;> rfl
@[simp] theorem setRes_outLen (s : State) (r : ResReg) (w : Word) : (s.setRes r w).outLen = s.outLen := by
  cases r <;> rfl
@[simp] theorem setRes_keyLen (s : State) (r : ResReg) (w : Word) : (s.setRes r w).keyLen = s.keyLen := by
  cases r <;> rfl
@[simp] theorem setRes_op0 (s : State) (r : ResReg) (w : Word) : (s.setRes r w).op0 = s.op0 := by
  cases r <;> rfl
@[simp] theorem setRes_op1 (s : State) (r : ResReg) (w : Word) : (s.setRes r w).op1 = s.op1 := by
  cases r <;> rfl
@[simp] theorem setRes_op2 (s : State) (r : ResReg) (w : Word) : (s.setRes r w).op2 = s.op2 := by
  cases r <;> rfl
@[simp] theorem setRes_key0 (s : State) (r : ResReg) (w : Word) : (s.setRes r w).key0 = s.key0 := by
  cases r <;> rfl
@[simp] theorem setRes_key1 (s : State) (r : ResReg) (w : Word) : (s.setRes r w).key1 = s.key1 := by
  cases r <;> rfl
@[simp] theorem setRes_key2 (s : State) (r : ResReg) (w : Word) : (s.setRes r w).key2 = s.key2 := by
  cases r <;> rfl
@[simp] theorem setRes_key3 (s : State) (r : ResReg) (w : Word) : (s.setRes r w).key3 = s.key3 := by
  cases r <;> rfl
@[simp] theorem setRes_mem (s : State) (r : ResReg) (w : Word) : (s.setRes r w).mem = s.mem := by
  cases r <;> rfl
@[simp] theorem setRes_resetAsserted (s : State) (r : ResReg) (w : Word) : (s.setRes r w).resetAsserted = s.resetAsserted := by
  cases r <;> rfl
@[simp] theorem setRes_reply (s : State) (r : ResReg) (w : Word) : (s.setRes r w).reply = s.reply := by
  cases r <;> rfl
@[simp] theorem setRes_draws (s : State) (r : ResReg) (w : Word) : (s.setRes r w).draws = s.draws := by
  cases r <;> rfl
@[simp] theorem setRes_hosts (s : State) (r : ResReg) (w : Word) : (s.setRes r w).hosts = s.hosts := by
  cases r <;> rfl
@[simp] theorem setRes_turns (s : State) (r : ResReg) (w : Word) : (s.setRes r w).turns = s.turns := by
  cases r <;> rfl

@[simp] theorem setRegs_params (s : State) (ws : List (ResReg × Word)) : (s.setRegs ws).params = s.params := by
  induction ws generalizing s with
  | nil => rfl
  | cons b ws ih => simp [State.setRegs, ih]
@[simp] theorem setRegs_ctrl (s : State) (ws : List (ResReg × Word)) : (s.setRegs ws).ctrl = s.ctrl := by
  induction ws generalizing s with
  | nil => rfl
  | cons b ws ih => simp [State.setRegs, ih]
@[simp] theorem setRegs_status (s : State) (ws : List (ResReg × Word)) : (s.setRegs ws).status = s.status := by
  induction ws generalizing s with
  | nil => rfl
  | cons b ws ih => simp [State.setRegs, ih]
@[simp] theorem setRegs_cmd (s : State) (ws : List (ResReg × Word)) : (s.setRegs ws).cmd = s.cmd := by
  induction ws generalizing s with
  | nil => rfl
  | cons b ws ih => simp [State.setRegs, ih]
@[simp] theorem setRegs_inLen (s : State) (ws : List (ResReg × Word)) : (s.setRegs ws).inLen = s.inLen := by
  induction ws generalizing s with
  | nil => rfl
  | cons b ws ih => simp [State.setRegs, ih]
@[simp] theorem setRegs_outLen (s : State) (ws : List (ResReg × Word)) : (s.setRegs ws).outLen = s.outLen := by
  induction ws generalizing s with
  | nil => rfl
  | cons b ws ih => simp [State.setRegs, ih]
@[simp] theorem setRegs_keyLen (s : State) (ws : List (ResReg × Word)) : (s.setRegs ws).keyLen = s.keyLen := by
  induction ws generalizing s with
  | nil => rfl
  | cons b ws ih => simp [State.setRegs, ih]
@[simp] theorem setRegs_op0 (s : State) (ws : List (ResReg × Word)) : (s.setRegs ws).op0 = s.op0 := by
  induction ws generalizing s with
  | nil => rfl
  | cons b ws ih => simp [State.setRegs, ih]
@[simp] theorem setRegs_op1 (s : State) (ws : List (ResReg × Word)) : (s.setRegs ws).op1 = s.op1 := by
  induction ws generalizing s with
  | nil => rfl
  | cons b ws ih => simp [State.setRegs, ih]
@[simp] theorem setRegs_op2 (s : State) (ws : List (ResReg × Word)) : (s.setRegs ws).op2 = s.op2 := by
  induction ws generalizing s with
  | nil => rfl
  | cons b ws ih => simp [State.setRegs, ih]
@[simp] theorem setRegs_key0 (s : State) (ws : List (ResReg × Word)) : (s.setRegs ws).key0 = s.key0 := by
  induction ws generalizing s with
  | nil => rfl
  | cons b ws ih => simp [State.setRegs, ih]
@[simp] theorem setRegs_key1 (s : State) (ws : List (ResReg × Word)) : (s.setRegs ws).key1 = s.key1 := by
  induction ws generalizing s with
  | nil => rfl
  | cons b ws ih => simp [State.setRegs, ih]
@[simp] theorem setRegs_key2 (s : State) (ws : List (ResReg × Word)) : (s.setRegs ws).key2 = s.key2 := by
  induction ws generalizing s with
  | nil => rfl
  | cons b ws ih => simp [State.setRegs, ih]
@[simp] theorem setRegs_key3 (s : State) (ws : List (ResReg × Word)) : (s.setRegs ws).key3 = s.key3 := by
  induction ws generalizing s with
  | nil => rfl
  | cons b ws ih => simp [State.setRegs, ih]
@[simp] theorem setRegs_mem (s : State) (ws : List (ResReg × Word)) : (s.setRegs ws).mem = s.mem := by
  induction ws generalizing s with
  | nil => rfl
  | cons b ws ih => simp [State.setRegs, ih]
@[simp] theorem setRegs_resetAsserted (s : State) (ws : List (ResReg × Word)) : (s.setRegs ws).resetAsserted = s.resetAsserted := by
  induction ws generalizing s with
  | nil => rfl
  | cons b ws ih => simp [State.setRegs, ih]
@[simp] theorem setRegs_reply (s : State) (ws : List (ResReg × Word)) : (s.setRegs ws).reply = s.reply := by
  induction ws generalizing s with
  | nil => rfl
  | cons b ws ih => simp [State.setRegs, ih]
@[simp] theorem setRegs_draws (s : State) (ws : List (ResReg × Word)) : (s.setRegs ws).draws = s.draws := by
  induction ws generalizing s with
  | nil => rfl
  | cons b ws ih => simp [State.setRegs, ih]
@[simp] theorem setRegs_hosts (s : State) (ws : List (ResReg × Word)) : (s.setRegs ws).hosts = s.hosts := by
  induction ws generalizing s with
  | nil => rfl
  | cons b ws ih => simp [State.setRegs, ih]
@[simp] theorem setRegs_turns (s : State) (ws : List (ResReg × Word)) : (s.setRegs ws).turns = s.turns := by
  induction ws generalizing s with
  | nil => rfl
  | cons b ws ih => simp [State.setRegs, ih]

@[simp] theorem setRegs_nil (s : State) : s.setRegs [] = s := rfl
@[simp] theorem setRegs_cons (s : State) (r : ResReg) (w : Word) (ws : List (ResReg × Word)) :
    s.setRegs ((r, w) :: ws) = (s.setRes r w).setRegs ws := rfl
@[simp] theorem setRes_eq0 (s : State) (w : Word) : s.setRes .res0 w = { s with res0 := w } := rfl
@[simp] theorem setRes_eq1 (s : State) (w : Word) : s.setRes .res1 w = { s with res1 := w } := rfl
@[simp] theorem setRes_eq2 (s : State) (w : Word) : s.setRes .res2 w = { s with res2 := w } := rfl
@[simp] theorem setRes_eq3 (s : State) (w : Word) : s.setRes .res3 w = { s with res3 := w } := rfl
@[simp] theorem setRes_eq4 (s : State) (w : Word) : s.setRes .res4 w = { s with res4 := w } := rfl
@[simp] theorem setRes_eq5 (s : State) (w : Word) : s.setRes .res5 w = { s with res5 := w } := rfl

/-! ### STATUS -/

@[simp] theorem status_issued_busy (t : Status) : (t.issued).busy = true := rfl
@[simp] theorem status_issued_done (t : Status) : (t.issued).done = false := rfl
@[simp] theorem status_issued_werr (t : Status) : (t.issued).werr = t.werr := rfl
@[simp] theorem status_issued_err (t : Status) : (t.issued).err = .ok := rfl
@[simp] theorem status_completed_busy (t : Status) (c : Completion) : (t.completed c).busy = false := rfl
@[simp] theorem status_completed_done (t : Status) (c : Completion) : (t.completed c).done = true := rfl
@[simp] theorem status_completed_werr (t : Status) (c : Completion) : (t.completed c).werr = t.werr := rfl
@[simp] theorem status_completed_err (t : Status) (c : Completion) : (t.completed c).err = c := rfl
@[simp] theorem status_dropped_busy (t : Status) : (t.dropped).busy = t.busy := rfl
@[simp] theorem status_dropped_done (t : Status) : (t.dropped).done = t.done := rfl
@[simp] theorem status_dropped_werr (t : Status) : (t.dropped).werr = true := rfl
@[simp] theorem status_dropped_err (t : Status) : (t.dropped).err = t.err := rfl
@[simp] theorem status_write_busy (t : Status) (v : Word) : (t.write v).busy = t.busy := rfl
@[simp] theorem status_write_done (t : Status) (v : Word) : (t.write v).done = (t.done && !v.getLsbD 1) := rfl
@[simp] theorem status_write_werr (t : Status) (v : Word) : (t.write v).werr = (t.werr && !v.getLsbD 2) := rfl
@[simp] theorem status_write_err (t : Status) (v : Word) : (t.write v).err = t.err := rfl

/-! ### Buffers -/

@[simp] theorem writeOut_inBuf (m : Memory) (ws : List Word) : (m.writeOut ws).inBuf = m.inBuf := rfl
@[simp] theorem writeOut_outBuf (m : Memory) (ws : List Word) :
    (m.writeOut ws).outBuf = ws.take m.outBuf.length ++ m.outBuf.drop ws.length := rfl
@[simp] theorem writeIn_inBuf (m : Memory) (i : Nat) (w : Word) : (m.writeIn i w).inBuf = m.inBuf.set i w := rfl
@[simp] theorem writeIn_outBuf (m : Memory) (i : Nat) (w : Word) : (m.writeIn i w).outBuf = m.outBuf := rfl

end Sys2Proof.Machine
end

