-- ==== Sys2Proof/Laws/Ops.lean ====
section
/-!
SUPPORT. What each shared operation can do, said once: buffers, commit, the register window, reset.
-/

namespace Sys2Proof.Machine

/-- The parameter limits of R7. -/
theorem params_wellFormed_iff (p : Params) :
    p.wellFormed = true ↔ p.base % 4096 = 0 ∧ p.bufDepth % 2 = 0 ∧ 2 ≤ p.bufDepth ∧ p.bufDepth ≤ 256 := by
  simp [Params.wellFormed, Params.baseLegal, Params.depthLegal, Config.windowBytes, and_assoc]

/-! ### Buffers -/

theorem memory_wf_iff (depth : Nat) (m : Memory) :
    m.wf depth = true ↔ m.inBuf.length = depth ∧ m.outBuf.length = depth := by
  simp [Memory.wf]

/-- Writing an output keeps the form of the buffers, whatever its length. -/
theorem writeOut_wf (depth : Nat) (m : Memory) (ws : List Word) :
    (m.writeOut ws).wf depth = m.wf depth := by
  have h : (ws.take m.outBuf.length ++ m.outBuf.drop ws.length).length = m.outBuf.length := by
    simp only [List.length_append, List.length_take, List.length_drop]
    omega
  simp only [Memory.wf, writeOut_inBuf, writeOut_outBuf, h]

/-- Writing an entry of IN_BUF keeps the form of the buffers. -/
theorem writeIn_wf (depth : Nat) (m : Memory) (i : Nat) (w : Word) :
    (m.writeIn i w).wf depth = m.wf depth := by
  simp [Memory.wf]

/-- The buffers after reset have the form. -/
theorem freeWords_wf (k j depth : Nat) :
    ({ inBuf := freeWords k depth, outBuf := freeWords j depth } : Memory).wf depth = true := by
  simp [Memory.wf, freeWords]

/-- The buffers of `State.reset` have the form. -/
theorem reset_mem_wf : State.reset.mem.wf State.reset.params.bufDepth = true := freeWords_wf _ _ _

/-- An output that fits is the new beginning of OUT_BUF. -/
theorem writeOut_of_fits (m : Memory) (ws : List Word) (h : ws.length ≤ m.outBuf.length) :
    m.writeOut ws = { m with outBuf := ws ++ m.outBuf.drop ws.length } := by
  simp [Memory.writeOut, List.take_of_length_le h]

theorem readIn_writeIn_same (m : Memory) (i : Nat) (w : Word) (h : i < m.inBuf.length) :
    (m.writeIn i w).readIn i = w := by
  simp [Memory.readIn, h]

theorem readIn_writeIn_other (m : Memory) (i j : Nat) (w : Word) (h : i ≠ j) :
    (m.writeIn i w).readIn j = m.readIn j := by
  simp [Memory.readIn, List.getElem?_set_ne h]

theorem readOut_writeIn (m : Memory) (i j : Nat) (w : Word) : (m.writeIn i w).readOut j = m.readOut j := rfl

theorem readIn_writeOut (m : Memory) (ws : List Word) (j : Nat) : (m.writeOut ws).readIn j = m.readIn j := rfl

/-! ### Commit -/

theorem commit_regs (ws : List (ResReg × Word)) (s : State) :
    commit (.ok (.regs ws)) s = complete .ok (s.setRegs ws) := rfl

theorem commit_buffer (ws : List Word) (s : State) :
    commit (.ok (.buffer ws)) s = complete .ok (s.setOutput ws) := rfl

/-- An error commits nothing but STATUS (R102). -/
theorem commit_error (e : CmdError) (s : State) :
    commit (.error e) s = { s with status := finished s (.err e) } := rfl

/-- The completion code that a command's outcome gives (R100). -/
def completionOf : CmdResult → Completion
  | .ok _    => .ok
  | .error e => .err e

/-- Every commit completes (R103). -/
@[simp] theorem commit_status (r : CmdResult) (s : State) :
    (commit r s).status = finished s (completionOf r) := by
  rcases r with e | ⟨ws⟩ | ⟨ws⟩ <;>
    simp [commit, State.apply, completionOf, finished, Status.completed]

/-- What no commit changes (R101). -/
theorem commit_frame (r : CmdResult) (s : State) :
    (commit r s).params = s.params ∧ (commit r s).ctrl = s.ctrl ∧ (commit r s).cmd = s.cmd ∧
    (commit r s).inLen = s.inLen ∧ (commit r s).keyLen = s.keyLen ∧
    (commit r s).op0 = s.op0 ∧ (commit r s).op1 = s.op1 ∧ (commit r s).op2 = s.op2 ∧
    (commit r s).key0 = s.key0 ∧ (commit r s).key1 = s.key1 ∧ (commit r s).key2 = s.key2 ∧
    (commit r s).key3 = s.key3 ∧ (commit r s).mem.inBuf = s.mem.inBuf ∧
    (commit r s).resetAsserted = s.resetAsserted ∧ (commit r s).reply = s.reply ∧
    (commit r s).draws = s.draws ∧ (commit r s).hosts = s.hosts ∧ (commit r s).turns = s.turns := by
  rcases r with e | ⟨ws⟩ | ⟨ws⟩ <;> simp [commit, State.apply]

/-- The three things a commit can do. -/
theorem commit_cases (r : CmdResult) (s : State) :
    (∃ e, r = .error e ∧ commit r s = { s with status := finished s (.err e) }) ∨
    (∃ ws, r = .ok (.regs ws) ∧ commit r s = { s.setRegs ws with status := finished s .ok }) ∨
    (∃ ws, r = .ok (.buffer ws) ∧ commit r s =
      { s with mem := s.mem.writeOut ws, outLen := word ws.length, status := finished s .ok }) := by
  rcases r with e | ⟨ws⟩ | ⟨ws⟩
  · exact .inl ⟨e, rfl, rfl⟩
  · refine .inr (.inl ⟨ws, rfl, ?_⟩)
    simp [commit, State.apply, complete, finished, Status.completed]
  · exact .inr (.inr ⟨ws, rfl, rfl⟩)

/-- A buffer command whose output fits leaves the state of `bufferDone`. -/
theorem commit_buffer_of_fits (o : List Int) (s : State) (h : o.length ≤ s.mem.outBuf.length) :
    commit (.ok (.buffer (o.map word))) s = bufferDone s o := by
  have h' : (o.map word).length ≤ s.mem.outBuf.length := by simpa using h
  simp [commit, State.apply, State.setOutput, complete, bufferDone, finished, Status.completed,
    writeOut_of_fits _ _ h']

/-- The outcome that each command commits. -/
def resultOf (i : Instr) (s : State) : CmdResult :=
  match i with
  | .modinv      => modinvResult s
  | .modpow      => modpowResult s
  | .txt2num     => txt2numResult s
  | .num2txt     => num2txtResult s
  | .hillEnc     => hillEncResult s
  | .det         => detResult s
  | .matinv26    => matinv26Result s
  | .hillDec src => hillDecResult src s
  | .rsaKeygen   => rsaKeygenResult s
  | .rsaEnc      => rsaEncResult s
  | .rsaDec      => rsaDecResult s

/-- Every command commits its outcome and completes (R100). -/
theorem exec_eq_commit (i : Instr) (s : State) : exec i s = .next (commit (resultOf i s) s) := by
  cases i <;> rfl

/-! ### Outputs fit -/

theorem applyPairs_length (m : Mat2) : ∀ c : List Int, (applyPairs m c).length = 2 * (c.length / 2)
  | [] => rfl
  | [_] => by simp [applyPairs]
  | _ :: _ :: rest => by
    simp only [applyPairs, List.length_cons, applyPairs_length m rest]
    omega

/-- Odd-length adjustment stays within an even bound. -/
theorem oddAdjust_length_le (p : OddPolicy) (f : Int) (d : Direction) (c c' : List Int) (n : Nat)
    (h : oddAdjust p f d c = .ok c') (hn : n % 2 = 0) (hc : c.length ≤ n) : c'.length ≤ n := by
  unfold oddAdjust at h
  split at h
  · cases h
    exact hc
  · cases p <;> cases d <;> simp at h <;> subst h <;> simp <;> omega

/-- The output of a buffer command always fits (R155, R209). -/
theorem resultOf_buffer_fits (i : Instr) (s : State) (ws : List Word) (hp : s.ParamsLegal)
    (h : resultOf i s = .ok (.buffer ws)) : ws.length ≤ s.params.bufDepth := by
  have even : s.params.bufDepth % 2 = 0 := ((params_wellFormed_iff _).mp hp).2.1
  have words : ¬ s.lengthBad = true → s.inWords.length ≤ s.params.bufDepth := by
    intro hb
    simp only [State.lengthBad, decide_eq_true_eq, Nat.not_lt] at hb
    simp only [State.inWords, List.length_take]
    omega
  have codes : ¬ s.lengthBad = true → s.inCodes.length ≤ s.params.bufDepth := by
    simpa [State.inCodes] using words
  have text : ¬ s.lengthBad = true → (textToCodes s.inText).length ≤ s.params.bufDepth := by
    intro hb
    refine le_trans ?_ (words hb)
    simpa [textToCodes, State.inText] using List.length_filter_le isLetter (s.inWords.map textEntry)
  have hill : ∀ m d c, hillApply m d c s = .ok (.buffer ws) → c.length ≤ s.params.bufDepth →
      ws.length ≤ s.params.bufDepth := by
    intro m d c ha hc
    unfold hillApply at ha
    split at ha
    · cases ha
    · cases ha
      have := oddAdjust_length_le _ _ _ _ _ _ ‹_› even hc
      simp only [List.length_map, applyPairs_length]
      omega
  cases i with
  | modinv =>
    simp only [resultOf, modinvResult] at h
    split_ifs at h
    split at h <;> cases h
  | modpow =>
    simp only [resultOf, modpowResult] at h
    split_ifs at h
    cases h
  | det =>
    simp only [resultOf, detResult] at h
    split at h <;> cases h
  | matinv26 =>
    simp only [resultOf, matinv26Result] at h
    split at h
    · cases h
    · split at h <;> cases h
  | rsaKeygen =>
    simp only [resultOf, rsaKeygenResult] at h
    split at h <;> cases h
  | txt2num =>
    simp only [resultOf, txt2numResult] at h
    split_ifs at h with hb
    cases h
    simpa using text hb
  | num2txt =>
    simp only [resultOf, num2txtResult] at h
    split_ifs at h with hb
    cases h
    simpa using codes hb
  | rsaEnc =>
    simp only [resultOf, rsaEncResult, rsaApply] at h
    split_ifs at h with hb
    cases h
    simpa using codes hb
  | rsaDec =>
    simp only [resultOf, rsaDecResult, rsaApply] at h
    split_ifs at h with hb
    cases h
    simpa using codes hb
  | hillEnc =>
    simp only [resultOf, hillEncResult] at h
    split_ifs at h with hb
    split at h
    · cases h
    · exact hill _ _ _ h (text hb)
  | hillDec src =>
    simp only [resultOf, hillDecResult] at h
    split_ifs at h with hb
    split at h
    · cases h
    · split at h
      · cases h
      · exact hill _ _ _ h (by cases src <;> [exact codes hb; exact text hb])

/-! ### The register window -/

/-- Above the RES registers the map is the two buffers and reserved offsets (R61). -/
theorem locate_high (depth off : Nat) (h : 0x058 ≤ off) :
    locate depth off =
      if 0x400 ≤ off ∧ off < 0x400 + 4 * depth then .inBuf ((off - 0x400) / 4)
      else if 0x800 ≤ off ∧ off < 0x800 + 4 * depth then .outBuf ((off - 0x800) / 4)
      else .reserved off := by
  unfold locate
  split <;> first | rfl | (exfalso; omega)

theorem locate_inBuf (depth i : Nat) (h : i < depth) : locate depth (0x400 + 4 * i) = .inBuf i := by
  rw [locate_high _ _ (by omega), if_pos (by omega)]
  congr 1
  omega

theorem locate_outBuf (depth i : Nat) (h : i < depth) (hd : depth ≤ 256) :
    locate depth (0x800 + 4 * i) = .outBuf i := by
  rw [locate_high _ _ (by omega), if_neg (by omega), if_pos (by omega)]
  congr 1
  omega

/-- Only offset 0x00C is STATUS (R61). -/
theorem locate_eq_status_iff (depth off : Nat) : locate depth off = .status ↔ off = 0x00C := by
  constructor
  · intro h
    unfold locate at h
    split at h <;> first | rfl | (exfalso; simp at h) | skip
    split_ifs at h
  · rintro rfl
    rfl

/-- Only offset 0x010 is CMD (R61). -/
theorem locate_eq_cmd_iff (depth off : Nat) : locate depth off = .cmd ↔ off = 0x010 := by
  constructor
  · intro h
    unfold locate at h
    split at h <;> first | rfl | (exfalso; simp at h) | skip
    split_ifs at h
  · rintro rfl
    rfl

/-- A read gives the word held, or, of a result while busy, the next free value (R73). -/
theorem readLoc_cases (l : Loc) (s : State) :
    (¬ (s.status.busy = true ∧ isResult l = true) ∧ readLoc l s = (s.wordAt l, s)) ∨
    ((s.status.busy = true ∧ isResult l = true) ∧
      readLoc l s = (Config.freeWord s.draws, { s with draws := s.draws + 1 })) := by
  unfold readLoc
  split
  · exact .inr ⟨‹_›, rfl⟩
  · exact .inl ⟨‹_›, rfl⟩

/-- Only an idle write of CMD or a STATUS write or a dropped write changes STATUS (R72). -/
theorem writeLoc_cases (l : Loc) (v : Word) (s : State) :
    (l = .status ∧ writeLoc l v s = acknowledge v s) ∨
    (l ≠ .status ∧ s.status.busy = true ∧ writeLoc l v s = { s with status := s.status.dropped }) ∨
    (l ≠ .status ∧ s.status.busy = false ∧ writeLoc l v s = writeIdle l v s) := by
  unfold writeLoc
  split
  · exact .inl ⟨‹_›, rfl⟩
  · split
    · exact .inr (.inl ⟨‹_›, ‹_›, rfl⟩)
    · exact .inr (.inr ⟨‹_›, by simpa using ‹¬ s.status.busy = true›, rfl⟩)

/-- What no write of the window changes: parameters, results, OUT_BUF, and everything outside the engine. -/
theorem writeLoc_frame (l : Loc) (v : Word) (s : State) :
    (writeLoc l v s).params = s.params ∧ (writeLoc l v s).outLen = s.outLen ∧
    (writeLoc l v s).res0 = s.res0 ∧ (writeLoc l v s).res1 = s.res1 ∧ (writeLoc l v s).res2 = s.res2 ∧
    (writeLoc l v s).res3 = s.res3 ∧ (writeLoc l v s).res4 = s.res4 ∧ (writeLoc l v s).res5 = s.res5 ∧
    (writeLoc l v s).mem.outBuf = s.mem.outBuf ∧ (writeLoc l v s).resetAsserted = s.resetAsserted ∧
    (writeLoc l v s).reply = s.reply ∧ (writeLoc l v s).draws = s.draws ∧
    (writeLoc l v s).hosts = s.hosts ∧ (writeLoc l v s).turns = s.turns := by
  rcases writeLoc_cases l v s with ⟨-, h⟩ | ⟨-, -, h⟩ | ⟨-, -, h⟩ <;> rw [h]
  · simp
  · simp
  · rcases l with _ | _ | _ | _ | _ | _ | _ | _ | k | k | k | i | i | off <;>
      first
        | simp [writeIdle]; done
        | (fin_cases k <;> simp [writeIdle])

/-- The window, as inequalities (R60). -/
theorem inWindow_iff (s : State) (addr : Nat) :
    s.inWindow addr = true ↔ s.params.base ≤ addr ∧ addr < s.params.base + 4096 := by
  simp only [State.inWindow, Bool.and_eq_true, decide_eq_true_eq]

theorem admitted_iff (a : Access) : a.admitted = true ↔ a.size = 4 ∧ a.addr % 4 = 0 := by
  simp [Access.admitted]

/-- The four answers of an access (R62 to R64, R232). -/
theorem access_cases (a : Access) (s : State) :
    (s.inWindow a.addr = false ∧ access a s = .fault (.outsideWindow a.addr)) ∨
    (s.inWindow a.addr = true ∧ s.resetAsserted = true ∧ access a s = .refused (.accessDuringReset a.addr)) ∨
    (s.inWindow a.addr = true ∧ s.resetAsserted = false ∧ a.admitted = false ∧
      access a s = .next { s with reply := some (.busError a.addr) }) ∨
    (s.inWindow a.addr = true ∧ s.resetAsserted = false ∧ a.admitted = true ∧
      access a s = .next (transfer (a.addr - s.params.base) a.data s)) := by
  unfold access
  cases s.inWindow a.addr <;> cases s.resetAsserted <;> cases a.admitted <;> simp

theorem transfer_write (off : Nat) (v : Word) (s : State) :
    transfer off (some v) s =
      { writeLoc (locate s.params.bufDepth off) v s with reply := some .ack } := rfl

theorem transfer_read (off : Nat) (s : State) :
    transfer off none s =
      { (readLoc (locate s.params.bufDepth off) s).2 with
        reply := some (.data (readLoc (locate s.params.bufDepth off) s).1) } := rfl

/-- An admitted access at an aligned offset of an open port is a transfer at that offset. -/
theorem accessAt_eq (s : State) (off : Nat) (d : Option Word) (hp : s.PortOpen) (h : off < 4096)
    (h4 : off % 4 = 0) : access (accessAt s off d) s = .next (transfer off d s) := by
  obtain ⟨hp, hr⟩ := hp
  have hb : s.params.base % 4096 = 0 := ((params_wellFormed_iff _).mp hp).1
  have hw : s.inWindow (s.params.base + off) = true := by
    simp [State.inWindow, Config.windowBytes, h]
  have ha : (accessAt s off d).admitted = true := by
    simp [Access.admitted, accessAt]
    omega
  rcases access_cases (accessAt s off d) s with ⟨h1, -⟩ | ⟨-, h1, -⟩ | ⟨-, -, h1, -⟩ | ⟨-, -, -, h1⟩
  · exact absurd hw (by simpa [accessAt] using h1)
  · simp [hr] at h1
  · simp [ha] at h1
  · simpa [accessAt] using h1

/-- What an access does to STATUS, in any phase: nothing; or it is a STATUS write, or an accepted CMD write, or a dropped
write (R72). Each case names the access, and the first says that it is none of the other three. -/
theorem access_status_cases (a : Access) (s v : State) (hp : s.ParamsLegal) (h : access a s = .next v) :
    (v.status = s.status ∧ (∀ w, a ≠ accessAt s 0x00C (some w)) ∧
      (s.status.busy = false → ∀ w, a ≠ accessAt s 0x010 (some w)) ∧
      (s.status.busy = true → ∀ off w, off < 4096 → off % 4 = 0 → off ≠ 0x00C →
        a ≠ accessAt s off (some w))) ∨
    (∃ w, a = accessAt s 0x00C (some w) ∧ v.status = s.status.write w) ∨
    (∃ w, a = accessAt s 0x010 (some w) ∧ s.status.busy = false ∧ v.status = s.status.issued) ∨
    (∃ off w, off < 4096 ∧ off % 4 = 0 ∧ off ≠ 0x00C ∧ a = accessAt s off (some w) ∧
      s.status.busy = true ∧ v.status = s.status.dropped) := by
  have hb : s.params.base % 4096 = 0 := ((params_wellFormed_iff _).mp hp).1
  rcases access_cases a s with ⟨-, e⟩ | ⟨-, -, e⟩ | ⟨-, -, ha, e⟩ | ⟨hw, -, ha, e⟩ <;> rw [e] at h
  · cases h
  · cases h
  · cases h
    rw [Bool.eq_false_iff, ne_eq, admitted_iff] at ha
    have other : ∀ off w, off % 4 = 0 → a ≠ accessAt s off (some w) := by
      rintro off w h4 rfl
      exact ha ⟨rfl, by show (s.params.base + off) % 4 = 0; omega⟩
    exact .inl ⟨rfl, fun w => other _ w (by omega), fun _ w => other _ w (by omega),
      fun _ off w _ h4 _ => other off w h4⟩
  · cases h
    rw [inWindow_iff] at hw
    rw [admitted_iff] at ha
    obtain ⟨addr, size, data⟩ := a
    dsimp only at hw ha ⊢
    obtain ⟨rfl, h4⟩ := ha
    cases data with
    | none =>
      rw [transfer_read]
      refine .inl ⟨?_, by simp [accessAt], by simp [accessAt], by simp [accessAt]⟩
      rcases readLoc_cases (locate s.params.bufDepth (addr - s.params.base)) s with ⟨-, e⟩ | ⟨-, e⟩ <;> rw [e]
    | some w =>
      have here : (⟨addr, 4, some w⟩ : Access) = accessAt s (addr - s.params.base) (some w) := by
        simp [accessAt]
        omega
      have only : ∀ off w', (⟨addr, 4, some w⟩ : Access) = accessAt s off (some w') →
          off = addr - s.params.base := by
        intro off w' h
        simp [accessAt] at h
        omega
      rw [transfer_write]
      rcases writeLoc_cases (locate s.params.bufDepth (addr - s.params.base)) w s with
        ⟨h1, e⟩ | ⟨h1, h2, e⟩ | ⟨h1, h2, e⟩ <;> rw [e]
      · rw [locate_eq_status_iff] at h1
        exact .inr (.inl ⟨w, by rw [here, h1], rfl⟩)
      · rw [ne_eq, locate_eq_status_iff] at h1
        exact .inr (.inr (.inr ⟨_, w, by omega, by omega, h1, here, h2, rfl⟩))
      · by_cases hc : locate s.params.bufDepth (addr - s.params.base) = .cmd
        · rw [hc]
          rw [locate_eq_cmd_iff] at hc
          exact .inr (.inr (.inl ⟨w, by rw [here, hc], h2, rfl⟩))
        · have hs : (writeIdle (locate s.params.bufDepth (addr - s.params.base)) w s).status = s.status := by
            generalize locate s.params.bufDepth (addr - s.params.base) = l at hc
            rcases l with _ | _ | _ | _ | _ | _ | _ | _ | k | k | k | i | i | off <;>
              first
                | rfl
                | exact absurd rfl hc
                | (fin_cases k <;> rfl)
          rw [locate_eq_cmd_iff] at hc
          rw [ne_eq, locate_eq_status_iff] at h1
          exact .inl ⟨hs, fun w' h => h1 (only _ _ h).symm, fun _ w' h => hc (only _ _ h).symm,
            fun hb => by simp [h2] at hb⟩

/-! ### Reset -/

/-- What asserting reset gives (R230): the state right after reset with the same parameters, reset asserted, and nothing
changed outside the engine. -/
theorem assertReset_eq (s : State) :
    (assertReset s).params = s.params ∧
    (assertReset s).ctrl = { oddpol := .reference, ie := false, filler := 23#5 } ∧
    (assertReset s).status = { busy := false, done := false, werr := false, err := .ok } ∧
    (assertReset s).outLen = 0#32 ∧ (assertReset s).resetAsserted = true ∧
    (assertReset s).mem.wf s.params.bufDepth = true ∧
    (assertReset s).hosts = s.hosts ∧ (assertReset s).turns = s.turns ∧ (assertReset s).reply = s.reply :=
  ⟨rfl, rfl, rfl, rfl, rfl, freeWords_wf _ _ _, rfl, rfl, rfl⟩

end Sys2Proof.Machine
end

