-- ==== Sys2Proof/Laws/PerInstr.lean ====
section
/-!
SUPPORT. Statements for all commands, one lemma per constructor.
-/

namespace Sys2Proof.Laws.LegalWord

/-- The opcode map gives the command legal fields (R91 to R93): its word is one of the twelve legal ones. -/
def Statement (i : Instr) : Prop := i.wellFormed = true ∧ i.fields.wellFormed = true

theorem modinv : Statement .modinv := ⟨rfl, rfl⟩
theorem modpow : Statement .modpow := ⟨rfl, rfl⟩
theorem txt2num : Statement .txt2num := ⟨rfl, rfl⟩
theorem num2txt : Statement .num2txt := ⟨rfl, rfl⟩
theorem hillEnc : Statement .hillEnc := ⟨rfl, rfl⟩
theorem det : Statement .det := ⟨rfl, rfl⟩
theorem matinv26 : Statement .matinv26 := ⟨rfl, rfl⟩
theorem hillDec (s : Source) : Statement (.hillDec s) := by cases s <;> exact ⟨rfl, rfl⟩
theorem rsaKeygen : Statement .rsaKeygen := ⟨rfl, rfl⟩
theorem rsaEnc : Statement .rsaEnc := ⟨rfl, rfl⟩
theorem rsaDec : Statement .rsaDec := ⟨rfl, rfl⟩

end Sys2Proof.Laws.LegalWord
end

