-- ==== Sys2Proof/Laws/Step.lean ====
section
/-!
SUPPORT. What a step can do, said once.
-/

namespace Sys2Proof.Machine

theorem nextMove_nil (s : State) (h : s.turns = []) : nextMove s = (.engine, s) := by
  simp [nextMove, h]

theorem nextMove_cons (s : State) (t : Turn) (ts : List Turn) (h : s.turns = t :: ts) :
    nextMove s = (t, { s with turns := ts }) := by
  simp [nextMove, h]

/-- The state a move is made on differs from `s` in the turns to come alone. -/
theorem nextMove_state (s : State) : ∃ ts, (nextMove s).2 = { s with turns := ts } := by
  unfold nextMove
  split
  · exact ⟨s.turns, rfl⟩
  · exact ⟨_, rfl⟩

/-- The engine's move: nothing unless it is enabled, and then the commit of one outcome. -/
theorem engineTurn_cases (s : State) :
    (s.engineEnabled = false ∧ engineTurn s = .next s) ∨
    (s.engineEnabled = true ∧ (∃ i, decode s.cmd = .ok i ∧ engineTurn s = exec i s)) ∨
    (s.engineEnabled = true ∧ (∃ e, decode s.cmd = .error e) ∧
      engineTurn s = .next (commit (.error .illegalCmd) s)) := by
  unfold engineTurn engineStep fetchWord execIllegal
  cases hs : s.engineEnabled
  · exact .inl ⟨rfl, by simp⟩
  · cases hd : decode s.cmd with
    | error e => exact .inr (.inr ⟨rfl, ⟨e, rfl⟩, by simp⟩)
    | ok i => exact .inr (.inl ⟨rfl, i, rfl, by simp⟩)

/-- When the engine's move changes anything, it commits one outcome: that of the decoded command, or ILLEGAL_CMD. -/
theorem engineTurn_commits (s : State) (h : s.engineEnabled = true) :
    ∃ r, (r = .error .illegalCmd ∨ ∃ i, decode s.cmd = .ok i ∧ r = resultOf i s) ∧
      engineTurn s = .next (commit r s) := by
  rcases engineTurn_cases s with ⟨h', -⟩ | ⟨-, i, hd, hi⟩ | ⟨-, -, hi⟩
  · simp [h] at h'
  · exact ⟨_, .inr ⟨i, hd, rfl⟩, hi.trans (exec_eq_commit i s)⟩
  · exact ⟨_, .inl rfl, hi⟩

/-- Taking a branch moves the host alone, or is refused because the label is missing. -/
theorem branchTo_cases (l : Label) (k : Nat) (h : HostAgent) (s : State) :
    (∃ hs, branchTo l k h s = .next { s with hosts := hs }) ∨
    (branchTo l k h s = .refused (.noSuchLabel l) ∧ HostLine.label l ∉ h.prog) := by
  unfold branchTo
  split
  · exact .inl ⟨_, rfl⟩
  · exact .inr ⟨rfl, by simpa using ‹¬ h.prog.contains (.label l) = true›⟩

theorem branchIf_cases (c : Bool) (l : Label) (k : Nat) (h : HostAgent) (s : State) :
    (∃ hs, branchIf c l k h s = .next { s with hosts := hs }) ∨
    (branchIf c l k h s = .refused (.noSuchLabel l) ∧ HostLine.label l ∉ h.prog) := by
  cases c
  · exact .inl ⟨_, rfl⟩
  · exact branchTo_cases l k h s

/-- Receiving a read's data changes the host alone. -/
theorem receive_hosts (x : Var) (k : Nat) (h : HostAgent) (s : State) :
    ∃ hs, receive x k h s = { s with hosts := hs } := by
  unfold receive
  split <;> exact ⟨_, rfl⟩

/-- Receiving an entry of READBUF changes the host alone. -/
theorem receiveElem_hosts (n k : Nat) (h : HostAgent) (s : State) :
    ∃ hs, receiveElem n k h s = { s with hosts := hs } := by
  unfold receiveElem
  split <;> exact ⟨_, rfl⟩

/-- A host's turn: it moves the host alone, or is refused at a missing label, or makes one access and then moves the
host alone. -/
theorem hostTurn_cases (k : Nat) (s : State) :
    (hostAccessOf k s = none ∧
      ((∃ hs, hostTurn k s = .next { s with hosts := hs }) ∨
       (∃ h l, s.hosts[k]? = some h ∧ hostTurn k s = .refused (.noSuchLabel l) ∧ HostLine.label l ∉ h.prog))) ∨
    (∃ a f, hostAccessOf k s = some a ∧ hostTurn k s = hostAccess a f s ∧
      ∀ v : State, ∃ hs, f v = { v with hosts := hs }) := by
  unfold hostTurn hostAccessOf
  cases hh : s.hosts[k]? with
  | none => exact .inl ⟨rfl, .inl ⟨s.hosts, rfl⟩⟩
  | some h =>
    cases hl : h.prog[h.pc]? with
    | none => exact .inl ⟨by simp [hl], .inl ⟨s.hosts, by simp [hl]⟩⟩
    | some line =>
      have quiet : ∀ (l : Label) (o : Answer), hostLine line k h s = o →
          ((∃ hs, o = .next { s with hosts := hs }) ∨
            (o = .refused (.noSuchLabel l) ∧ HostLine.label l ∉ h.prog)) →
          (∃ hs, hostLine line k h s = .next { s with hosts := hs }) ∨
          (∃ h' l, some h = some h' ∧ hostLine line k h s = .refused (.noSuchLabel l) ∧
            HostLine.label l ∉ h'.prog) := by
        rintro l o rfl (hn | hr)
        · exact .inl hn
        · exact .inr ⟨h, l, rfl, hr⟩
      cases line with
      | wr reg v =>
        exact .inr ⟨accessAt s (offsetOf reg) (some (h.eval v)), fun s' => s'.setHost k h.advance, by simp [hl],
          by simp [hl, hostLine, accessAt], fun _ => ⟨_, rfl⟩⟩
      | rd reg x =>
        exact .inr ⟨accessAt s (offsetOf reg) none, receive x k h, by simp [hl],
          by simp [hl, hostLine, accessAt], receive_hosts x k h⟩
      | halt => exact .inl ⟨by simp [hl], .inl ⟨s.hosts, by simp [hl, hostLine]⟩⟩
      | label l => exact .inl ⟨by simp [hl], .inl ⟨_, by simp [hl, hostLine, State.setHost]; rfl⟩⟩
      | rdElems n =>
        by_cases hr : h.reads < u32 (h.get (.len n))
        · exact .inr ⟨accessAt s (offsetOf (.outBuf h.reads)) none, receiveElem n k h, by simp [hl, hr],
            by simp [hl, hostLine, readElems, hr, accessAt], receiveElem_hosts n k h⟩
        · exact .inl ⟨by simp [hl, hr],
            .inl ⟨_, by simp only [hl, hostLine, readElems, if_neg hr, State.setHost]; rfl⟩⟩
      | jmp l =>
        exact .inl ⟨by simp [hl], by simpa [hl] using quiet l _ rfl (branchTo_cases l k h s)⟩
      | bset x b l =>
        exact .inl ⟨by simp [hl], by simpa [hl] using quiet l _ rfl (branchIf_cases _ l k h s)⟩
      | bclr x b l =>
        exact .inl ⟨by simp [hl], by simpa [hl] using quiet l _ rfl (branchIf_cases _ l k h s)⟩
      | bne x i l =>
        exact .inl ⟨by simp [hl], by simpa [hl] using quiet l _ rfl (branchIf_cases _ l k h s)⟩

/-- An access of a host answers what the access answers. -/
theorem hostAccess_next (a : Access) (f : State → State) (s t : State) (h : hostAccess a f s = .next t) :
    ∃ v, access a s = .next v ∧ t = f v := by
  unfold hostAccess at h
  cases ha : access a s with
  | next v =>
    rw [ha] at h
    exact ⟨v, rfl, (Host.Outcome.next.inj h).symm⟩
  | fault e => simp [ha] at h
  | refused e => simp [ha] at h

/-- Every step that answers a next state is one of these: at most the hosts moved; the engine committed one outcome; the
bus served one access (and the host that made it moved); reset was asserted; reset was released. `u` is the state without
the turn taken. -/
theorem step_cases (s t : State) (h : step s = .next t) :
    ∃ u, (∃ ts, u = { s with turns := ts }) ∧
      ((nextAccess s = none ∧ ¬ completesCommand s ∧ (nextMove s).1 ≠ .resetAssert ∧
          ∃ hs, t = { u with hosts := hs }) ∨
       (nextAccess s = none ∧ completesCommand s ∧ (nextMove s).1 ≠ .resetAssert ∧
          ∃ r, (r = .error .illegalCmd ∨ ∃ i, decode s.cmd = .ok i ∧ r = resultOf i u) ∧ t = commit r u) ∨
       (∃ a v, nextAccess s = some a ∧ ¬ completesCommand s ∧ (nextMove s).1 ≠ .resetAssert ∧
          access a u = .next v ∧ ∃ hs, t = { v with hosts := hs }) ∨
       (nextAccess s = none ∧ ¬ completesCommand s ∧ (nextMove s).1 = .resetAssert ∧ t = assertReset u) ∨
       (nextAccess s = none ∧ ¬ completesCommand s ∧ (nextMove s).1 = .resetRelease ∧ t = releaseReset u)) := by
  obtain ⟨ts, hu⟩ := nextMove_state s
  refine ⟨_, ⟨ts, hu⟩, ?_⟩
  generalize hv : (nextMove s).2 = u at *
  have hen : u.engineEnabled = s.engineEnabled := by rw [hu]; rfl
  unfold step at h
  rw [hv] at h
  cases hm : (nextMove s).1 with
  | engine =>
    rw [hm, runTurn] at h
    have hn : nextAccess s = none := by simp [nextAccess, hm]
    cases he : u.engineEnabled with
    | false =>
      have e : engineTurn u = .next u := by simp [engineTurn, he]
      rw [e] at h
      exact .inl ⟨hn, by simp [completesCommand, ← hen, he], by simp, u.hosts, (Host.Outcome.next.inj h).symm⟩
    | true =>
      obtain ⟨r, hr, hc⟩ := engineTurn_commits u he
      rw [hc] at h
      have hcmd : u.cmd = s.cmd := by rw [hu]
      exact .inr (.inl ⟨hn, ⟨hm, hen ▸ he⟩, by simp, r, hcmd ▸ hr, (Host.Outcome.next.inj h).symm⟩)
  | access a =>
    rw [hm, runTurn] at h
    exact .inr (.inr (.inl ⟨a, t, by simp [nextAccess, hm], by simp [completesCommand, hm], by simp, h,
      t.hosts, rfl⟩))
  | resetAssert =>
    rw [hm, runTurn] at h
    exact .inr (.inr (.inr (.inl ⟨by simp [nextAccess, hm], by simp [completesCommand, hm], rfl,
      (Host.Outcome.next.inj h).symm⟩)))
  | resetRelease =>
    rw [hm, runTurn] at h
    exact .inr (.inr (.inr (.inr ⟨by simp [nextAccess, hm], by simp [completesCommand, hm], rfl,
      (Host.Outcome.next.inj h).symm⟩)))
  | host k =>
    rw [hm, runTurn] at h
    have hc : ¬ completesCommand s := by simp [completesCommand, hm]
    have hk : nextAccess s = hostAccessOf k u := by
      rw [hu]
      simp only [nextAccess, hm]
      rfl
    rcases hostTurn_cases k u with ⟨hn, ⟨hs, e⟩ | ⟨_, _, -, e, -⟩⟩ | ⟨a, f, ha, e, hf⟩
    · rw [e] at h
      exact .inl ⟨hk.trans hn, hc, by simp, hs, (Host.Outcome.next.inj h).symm⟩
    · rw [e] at h
      exact absurd h (by simp)
    · rw [e] at h
      obtain ⟨v, hv', ht⟩ := hostAccess_next a f u t h
      obtain ⟨hs, hfv⟩ := hf v
      exact .inr (.inr (.inl ⟨a, v, hk.trans ha, hc, by simp, hv', hs, ht.trans hfv⟩))

end Sys2Proof.Machine
end

