-- ==== Sys2Proof/Tests/Slice0.lean ====
section
/-!
SUPPORT. Tests of the model: decoding by words written out from the opcode map, ill-formed terms refused, one small step
per command with results from spec/95_test_vectors.md, the register window, and for each obligation with hypotheses a
witness that meets them.
-/

namespace Sys2Proof.Tests

open Sys2Proof Sys2Proof.Machine

/-- A reset engine with BUF_DEPTH 8 at 0x1000, whose IN_BUF holds `ws` and whose OUT_BUF holds 0xEE everywhere. -/
def rig (ws : List Word) : State :=
  { State.afterReset ⟨0x1000, 8⟩ 0 with
    mem := { inBuf := ws ++ List.replicate (8 - ws.length) 0#32, outBuf := List.replicate 8 0xEE#32 }
    inLen := word ws.length
    draws := 0 }

/-- `s` with the key [a, b, c, d] and KEY_LEN 4. -/
def withKey (a b c d : Int) (s : State) : State :=
  { s with key0 := word a, key1 := word b, key2 := word c, key3 := word d, keyLen := 4#32 }

/-- `s` with OP0, OP1, OP2. -/
def withOps (a b c : Int) (s : State) : State := { s with op0 := word a, op1 := word b, op2 := word c }

/-- `s` with ODDPOL `p`. -/
def withPolicy (p : OddPolicy) (s : State) : State := { s with ctrl := { s.ctrl with oddpol := p } }

/-- `s` busy with the command word `w`. -/
def busyWith (w : Word) (s : State) : State := { s with cmd := w, status := s.status.issued }

/-- The next state an answer gives, `rig []` when there is none. -/
def after : Answer → State
  | .next t => t
  | _ => rig []

/-- `after` of an access of `rig` at an offset. -/
def bus (s : State) (off : Nat) (d : Option Word) : State := after (access (accessAt s off d) s)

/-- A host in the middle of READBUF result 0, with `done` entries read of r.len `len`. -/
def reader (done : Nat) (len : Word) : State :=
  { rig [] with hosts := [⟨[.rdElems 0, .halt], 0, [(.len 0, len)], 0, done⟩] }

/-- `rig` with one host at line `pc` of `prog` and t = 1. -/
def host (prog : List HostLine) (pc : Nat) : State :=
  { rig [] with hosts := [⟨prog, pc, [(.t, 1#32)], 0, 0⟩] }

/-- The text "HELLO". -/
def hello : List Word := [0x48#32, 0x45#32, 0x4C#32, 0x4C#32, 0x4F#32]

/-! ### Decoding (R95, R96; V-DC) -/

theorem test_decode_modinv : decode 0b00000000000000000000000_0_00000001#32 = .ok .modinv := rfl
theorem test_decode_modpow : decode 0b00000000000000000000000_0_00000010#32 = .ok .modpow := rfl
theorem test_decode_txt2num : decode 0b00000000000000000000000_0_00000011#32 = .ok .txt2num := rfl
theorem test_decode_num2txt : decode 0b00000000000000000000000_0_00000100#32 = .ok .num2txt := rfl
theorem test_decode_hillEnc : decode 0b00000000000000000000000_0_00000101#32 = .ok .hillEnc := rfl
theorem test_decode_det : decode 0b00000000000000000000000_0_00000110#32 = .ok .det := rfl
theorem test_decode_matinv26 : decode 0b00000000000000000000000_0_00000111#32 = .ok .matinv26 := rfl
theorem test_decode_hillDec_codes :
    decode 0b00000000000000000000000_0_00001000#32 = .ok (.hillDec .codes) := rfl
theorem test_decode_hillDec_text :
    decode 0b00000000000000000000000_1_00001000#32 = .ok (.hillDec .text) := rfl
theorem test_decode_rsaKeygen : decode 0b00000000000000000000000_0_00001001#32 = .ok .rsaKeygen := rfl
theorem test_decode_rsaEnc : decode 0b00000000000000000000000_0_00001010#32 = .ok .rsaEnc := rfl
theorem test_decode_rsaDec : decode 0b00000000000000000000000_0_00001011#32 = .ok .rsaDec := rfl

/-- V-DC1, V-DC2, V-DC3: undefined opcodes. -/
theorem test_decode_undefined :
    decode 0x00000000#32 = .error .undefinedOpcode ∧ decode 0x0000000C#32 = .error .undefinedOpcode ∧
    decode 0x000000FF#32 = .error .undefinedOpcode := ⟨rfl, rfl, rfl⟩

/-- V-DC4, V-DC5: S = 1 on another command. -/
theorem test_decode_strayS :
    decode 0x00000101#32 = .error .strayS ∧ decode 0x00000105#32 = .error .strayS := ⟨rfl, rfl⟩

/-- V-DC6, V-DC7, V-DC9: a reserved bit. -/
theorem test_decode_reserved :
    decode 0x00000201#32 = .error .reservedBits ∧ decode 0x80000001#32 = .error .reservedBits ∧
    decode 0x00000208#32 = .error .reservedBits := ⟨rfl, rfl, rfl⟩

/-- The byte lanes of 0x00000108: 0x08 at offset +0, 0x01 at +1 (R65); too few bytes are no command word. -/
theorem test_decode_bytes :
    decodeBytes [0x08#8, 0x01#8, 0x00#8, 0x00#8, 0xAA#8] = .ok (.hillDec .text, [0xAA#8]) ∧
    decodeBytes [0x08#8, 0x01#8, 0x00#8] = .error .tooShort ∧
    decodeTableWord 32 0x108 = some (.hillDec .text) ∧ decodeTableWord 8 0x0B = some .rsaDec := by decide

/-- `withFetchWord` makes the next step run the command. -/
theorem test_withFetchWord_runs :
    step ((rig hello).withFetchWord 32 0x03) = exec .txt2num ((rig hello).withFetchWord 32 0x03) := rfl

/-! ### Ill-formed terms are refused (smoke test of WellFormed) -/

theorem test_wf_rsv : (CmdFields.rsvLegal ⟨0x01#8, false, 1#23⟩) = false := by decide
theorem test_wf_opc :
    CmdFields.opcLegal ⟨0x00#8, false, 0#23⟩ = false ∧ CmdFields.opcLegal ⟨0x0C#8, false, 0#23⟩ = false := by
  decide
theorem test_wf_s : CmdFields.sLegal ⟨0x0A#8, true, 0#23⟩ = false := by decide
theorem test_wf_fields : CmdFields.wellFormed ⟨0x0A#8, true, 0#23⟩ = false := by decide
theorem test_wf_base : Params.baseLegal ⟨0x1800, 8⟩ = false := by decide
theorem test_wf_depth :
    Params.depthLegal ⟨0, 7⟩ = false ∧ Params.depthLegal ⟨0, 0⟩ = false ∧
    Params.depthLegal ⟨0, 258⟩ = false ∧ Params.depthLegal ⟨0, 256⟩ = true := by decide
theorem test_wf_loc :
    Loc.wellFormed 8 (.inBuf 8) = false ∧ Loc.wellFormed 8 (.outBuf 8) = false ∧
    Loc.wellFormed 8 (.reserved 0x2E) = false ∧ Loc.wellFormed 8 (.reserved 0x1000) = false := by decide
theorem test_wf_hostProgram :
    hostProgramWellFormed 8 [.jmp (.user 1), .label (.user 2)] = false ∧
    hostProgramWellFormed 8 [.rd (.outBuf 9) .t] = false ∧
    hostProgramWellFormed 8 [.label (.user 1), .rd .status .t, .bset .t 0 (.user 1)] = true := by decide
theorem test_wf_memory : Memory.wf 8 ⟨[], List.replicate 8 0#32⟩ = false := by decide

/-! ### The commands (95_test_vectors.md, part L2; "OK" is STATUS 0x2, "ERR c" is STATUS 0x0c02) -/

/-- V-MI4, V-MI12. -/
theorem test_modinv :
    (after (exec .modinv (withOps (-3) 7 0 (rig [])))).res0 = 2#32 ∧
    (after (exec .modinv (withOps 17 3120 0 (rig [])))).res0 = 2753#32 := by decide

/-- V-MI14, V-MI20: the error, and BAD_MODULUS first. -/
theorem test_modinv_errors :
    (after (exec .modinv (withOps 2 4 0 (rig [])))).status.toWord = 0x0402#32 ∧
    (after (exec .modinv (withOps 2 (-2147483648) 0 (rig [])))).status.toWord = 0x0502#32 := by decide

/-- V-MP6, V-MP8. -/
theorem test_modpow :
    (after (exec .modpow (withOps (-2) 3 7 (rig [])))).res0 = 6#32 ∧
    (after (exec .modpow (withOps 2 2147483647 2147483647 (rig [])))).res0 = 2#32 := by decide

/-- V-MP18, V-MP21. -/
theorem test_modpow_errors :
    (after (exec .modpow (withOps 3 (-1) 7 (rig [])))).status.toWord = 0x0602#32 ∧
    (after (exec .modpow (withOps 3 (-1) 0 (rig [])))).status.toWord = 0x0502#32 := by decide

/-- V-TN2, the entries that fit BUF_DEPTH 8: a stale entry stays. -/
theorem test_txt2num :
    (after (exec .txt2num (rig [0x40#32, 0x41#32, 0x7A#32, 0x7B#32, 0x141#32, 0xC1#32, 0xFFFFFF61#32]))).mem.outBuf =
      [0#32, 25#32, 0#32, 0#32, 0xEE#32, 0xEE#32, 0xEE#32, 0xEE#32] := by decide

/-- V-TN6: IN_LEN is unsigned. -/
theorem test_txt2num_length :
    (after (exec .txt2num { rig hello with inLen := 0xFFFFFFFF#32 })).status.toWord = 0x0802#32 := by decide

/-- V-NT2. -/
theorem test_num2txt :
    (after (exec .num2txt (rig [0x80000000#32, 0x7FFFFFFF#32, 51#32, word (-52)]))).mem.outBuf.take 5 =
      [0x43#32, 0x58#32, 0x5A#32, 0x41#32, 0xEE#32] := by decide

/-- V-NT5: the limit itself is legal. -/
theorem test_num2txt_limit :
    (after (exec .num2txt { rig [] with inLen := 8#32 })).outLen = 8#32 := by decide

/-- V-HE1. -/
theorem test_hillEnc :
    (after (exec .hillEnc (withKey 3 3 2 5 (rig hello)))).mem.outBuf =
      [7#32, 8#32, 14#32, 25#32, 7#32, 13#32, 0xEE#32, 0xEE#32] := by decide

/-- V-HE3, V-HE4. -/
theorem test_hillEnc_policies :
    (after (exec .hillEnc (withPolicy .truncate (withKey 3 3 2 5 (rig hello))))).outLen = 4#32 ∧
    (after (exec .hillEnc (withPolicy .reject (withKey 3 3 2 5 (rig hello))))).status.toWord = 0x0702#32 := by
  decide

/-- V-DT5: the largest determinant. -/
theorem test_det :
    (after (exec .det (withKey (-2147483648) (-2147483648) 2147483647 (-2147483648) (rig [])))).res0 =
      0x80000000#32 ∧
    (after (exec .det (withKey (-2147483648) (-2147483648) 2147483647 (-2147483648) (rig [])))).res1 =
      0x7FFFFFFF#32 := by decide

/-- V-DT2, V-DT9. -/
theorem test_det_negative :
    (after (exec .det (withKey 2 4 6 8 (rig [])))).res1 = 0xFFFFFFFF#32 ∧
    (after (exec .det { withKey 2 4 6 8 (rig []) with keyLen := 5#32 })).status.toWord = 0x0102#32 := by decide

/-- V-MX5. -/
theorem test_matinv26 :
    (fun t : State => [t.res0, t.res1, t.res2, t.res3, t.res4, t.res5])
      (after (exec .matinv26 (withKey 5 17 4 15 (rig [])))) =
      [17#32, 5#32, 18#32, 23#32, 7#32, 15#32] := by decide

/-- V-MX7, V-MX11. -/
theorem test_matinv26_errors :
    (after (exec .matinv26 (withKey 13 0 0 1 (rig [])))).status.toWord = 0x0202#32 ∧
    (after (exec .matinv26 { withKey 2 4 6 8 (rig []) with keyLen := 0#32 })).status.toWord = 0x0102#32 := by
  decide

/-- V-HD5: PAD on the decrypt path, codes form. -/
theorem test_hillDec_codes :
    (after (exec (.hillDec .codes) (withPolicy .pad (withKey 3 3 2 5 (rig [7#32, 8#32, 14#32]))))).mem.outBuf.take 5 =
      [7#32, 4#32, 3#32, 19#32, 0xEE#32] := by decide

/-- V-HD3: text form, "hi-oz hn". -/
theorem test_hillDec_text :
    (after (exec (.hillDec .text) (withKey 3 3 2 5
      (rig [0x68#32, 0x69#32, 0x2D#32, 0x6F#32, 0x7A#32, 0x20#32, 0x68#32, 0x6E#32])))).mem.outBuf =
      [7#32, 4#32, 11#32, 11#32, 14#32, 23#32, 0xEE#32, 0xEE#32] := by decide

/-- V-KG7: a negative e. -/
theorem test_rsaKeygen :
    (fun t : State => [t.res0, t.res1, t.res2]) (after (exec .rsaKeygen (withOps 3 11 (-3) (rig [])))) =
      [33#32, 13#32, 20#32] := by decide

/-- V-KG15, V-KG12. -/
theorem test_rsaKeygen_errors :
    (after (exec .rsaKeygen (withOps (-46340) (-46340) 3 (rig [])))).status.toWord = 0x0902#32 ∧
    (after (exec .rsaKeygen (withOps (-3) (-11) 3 (rig [])))).status.toWord = 0x0302#32 := by decide

/-- V-RE2. -/
theorem test_rsaEnc :
    (after (exec .rsaEnc (withOps 3 33 0 (rig [0xFFFFFFFF#32, 34#32, 0#32, 32#32])))).mem.outBuf.take 5 =
      [32#32, 1#32, 0#32, 32#32, 0xEE#32] := by decide

/-- V-RE5, V-RE6. -/
theorem test_rsaEnc_errors :
    (after (exec .rsaEnc (withOps 3 0 0 (rig [3#32])))).status.toWord = 0x0502#32 ∧
    (after (exec .rsaEnc (withOps (-1) 33 0 (rig [3#32])))).status.toWord = 0x0602#32 := by decide

/-- V-RD2. -/
theorem test_rsaDec :
    (after (exec .rsaDec (withOps 2753 3233 0 (rig [2790#32])))).mem.outBuf.take 2 = [65#32, 0xEE#32] := by
  decide

/-- V-RD3. -/
theorem test_rsaDec_errors :
    (after (exec .rsaDec (withOps (-7) 33 0 (rig [1#32])))).status.toWord = 0x0602#32 := by decide

/-! ### The register window (V-RG) -/

/-- V-RG1, and V-RG6: reserved offsets read 0. -/
theorem test_reads_after_reset :
    [0x000, 0x004, 0x008, 0x00C, 0x058, 0xFFC].map (fun off => (bus (rig []) off none).reply) =
      [some (.data 0x43525950#32), some (.data 8#32), some (.data 0x1700#32), some (.data 0#32),
       some (.data 0#32), some (.data 0#32)] := by decide

/-- V-RG2, V-RG3. -/
theorem test_ctrl_write :
    (bus (rig []) 0x008 (some 0x1F03#32)).ctrl.toWord = 0x1703#32 ∧
    (bus (rig []) 0x008 (some 0xFFFFFFFF#32)).ctrl.toWord = 0x1707#32 := by decide

/-- V-RG4: FILLER 25 is legal, 26 is not. -/
theorem test_ctrl_filler :
    (bus (bus (rig []) 0x008 (some 0x1900#32)) 0x008 (some 0x1A00#32)).ctrl.toWord = 0x1900#32 := by decide

/-- V-RG5: an idle write to a read-only register changes only the reply. -/
theorem test_ro_write : bus (rig []) 0x018 (some 9#32) = { rig [] with reply := some .ack } := by decide

/-- V-RG7: IN[BUF_DEPTH] reads as zero and ignores writes; the last entry holds what is written. -/
theorem test_buffer_edge :
    (bus (bus (rig []) 0x420 (some 9#32)) 0x420 none).reply = some (.data 0#32) ∧
    (bus (bus (rig []) 0x41C (some 9#32)) 0x41C none).reply = some (.data 9#32) := by decide

/-- V-RG8: a narrow read, a misaligned read, a misaligned write. -/
theorem test_bus_errors :
    access ⟨0x1000, 1, none⟩ (rig []) = .next { rig [] with reply := some (.busError 0x1000) } ∧
    access ⟨0x1002, 4, none⟩ (rig []) = .next { rig [] with reply := some (.busError 0x1002) } ∧
    access ⟨0x1011, 4, some 1#32⟩ (rig []) = .next { rig [] with reply := some (.busError 0x1011) } :=
  ⟨rfl, rfl, rfl⟩

/-- V-RG9: a dropped write sets WERR; V-RG19: a STATUS write is accepted while busy. -/
theorem test_busy_writes :
    (bus (busyWith 1#32 (rig [])) 0x020 (some 5#32)).status.toWord = 0x5#32 ∧
    (bus (bus (busyWith 1#32 (rig [])) 0x020 (some 5#32)) 0x00C (some 6#32)).status.toWord = 0x1#32 := by decide

/-- V-RG12: the issue, and the dropped second one. -/
theorem test_issue :
    (bus (rig []) 0x010 (some 1#32)).status.toWord = 0x1#32 ∧
    (bus (bus (rig []) 0x010 (some 1#32)) 0x010 (some 2#32)).cmd = 1#32 := by decide

/-- V-RG13: irq after a completion with IE = 1, and its acknowledge. -/
theorem test_irq :
    (after (exec .modinv (withOps 3 20 0 (bus (rig []) 0x008 (some 0x1704#32))))).irq = true ∧
    (bus (after (exec .modinv (withOps 3 20 0 (bus (rig []) 0x008 (some 0x1704#32))))) 0x00C (some 2#32)).irq =
      false := by decide

/-- V-RG18: reset while a command is in flight. -/
theorem test_reset_in_flight :
    (after (step { busyWith 5#32 (withKey 3 3 2 5 (rig hello)) with turns := [.resetAssert] })).status.toWord = 0#32 ∧
    (after (step { busyWith 5#32 (withKey 3 3 2 5 (rig hello)) with turns := [.resetAssert] })).key0 = 0#32 := by
  decide

/-- R105: one `RD` line, one `BSET` line that branches. -/
theorem test_host_lines :
    ((after (hostTurn 0 { rig [] with hosts := [⟨[.rd .cap (.r 0)], 0, [], 0, 0⟩] })).hosts.map (·.get (.r 0))) =
      [8#32] ∧
    ((after (hostTurn 0 { rig [] with
      hosts := [⟨[.label (.user 7), .bset .t 0 (.user 7)], 1, [(.t, 1#32)], 0, 0⟩] })).hosts.map (·.pc)) = [0] := by
  decide

/-- R106: READBUF with r.len 10, beyond BUF_DEPTH 8: entry 9 is read at 0x824, a reserved offset that reads 0; then the
host goes on. -/
theorem test_readbuf_past_depth :
    (after (hostTurn 0 (reader 9 10#32))).hosts.map (fun h => (h.get (.elem 0 9), h.pc, h.reads)) = [(0#32, 0, 10)] ∧
    (after (hostTurn 0 (reader 10 10#32))).hosts.map (fun h => (h.pc, h.reads)) = [(1, 0)] := by decide

/-- R106: RUN and READBUF. -/
theorem test_expand :
    expand 0 [.run (.hillDec .text), .readBuf 0, .wait] =
      [.wr .cmd (.imm 0x108#32), .label (.fresh 0), .rd .status .t, .bset .t 0 (.fresh 0),
       .rd .outLen (.len 0), .rdElems 0, .label (.fresh 1), .rd .status .t, .bset .t 0 (.fresh 1)] := by decide

/-! ### Witnesses: for each obligation with hypotheses, concrete values that meet them, clause by clause -/

theorem witness_DecodeFollowsTheFieldRules :
    (0x00000200#32).toNat / 2 ^ 9 ≠ 0 ∧ (0x80000000#32).toNat / 2 ^ 9 ≠ 0 ∧
    ((0x00000100#32).toNat / 2 ^ 9 = 0 ∧ (0x00000100#32).toNat % 2 ^ 8 = 0) ∧
    ((0x0000000C#32).toNat / 2 ^ 9 = 0 ∧ 0x0B < (0x0000000C#32).toNat % 2 ^ 8) ∧
    ((0x0000010B#32).toNat / 2 ^ 9 = 0 ∧ 1 ≤ (0x0000010B#32).toNat % 2 ^ 8 ∧
      (0x0000010B#32).toNat % 2 ^ 8 ≤ 0x0B ∧ (0x0000010B#32).toNat / 2 ^ 8 % 2 = 1 ∧
      (0x0000010B#32).toNat % 2 ^ 8 ≠ 8) ∧
    ((0x00000108#32).toNat / 2 ^ 9 = 0 ∧ 1 ≤ (0x00000108#32).toNat % 2 ^ 8 ∧
      (0x00000108#32).toNat % 2 ^ 8 ≤ 0x0B ∧ (0x00000108#32).toNat % 2 ^ 8 = 8) ∧
    ((0x00000001#32).toNat / 2 ^ 9 = 0 ∧ 1 ≤ (0x00000001#32).toNat % 2 ^ 8 ∧
      (0x00000001#32).toNat % 2 ^ 8 ≤ 0x0B ∧ (0x00000001#32).toNat / 2 ^ 8 % 2 = 0) := by decide

theorem witness_StepMakesTheNextMove :
    ({ rig [] with turns := [.resetRelease, .engine] } : State).turns = .resetRelease :: [.engine] ∧
    (rig []).turns = [] := by decide

theorem witness_StepRunsTheDecodedCommand :
    (busyWith 0x108#32 (rig hello)).status.busy = true ∧ (busyWith 0x108#32 (rig hello)).resetAsserted = false ∧
    decode (busyWith 0x108#32 (rig hello)).cmd = .ok (.hillDec .text) ∧
    (Instr.hillDec .text).wellFormed = true ∧ (busyWith 0x108#32 (rig hello)).turns = [] ∧
    ({ busyWith 0x108#32 (rig hello) with turns := [.engine, .host 0] } : State).turns = .engine :: [.host 0] :=
  ⟨rfl, rfl, rfl, rfl, rfl, rfl⟩

theorem witness_IdleEngineTakesNoStep :
    (rig []).status.busy = false ∧ (rig []).turns = [] ∧
    ({ rig [] with turns := [.engine] } : State).turns = .engine :: [] := by decide

theorem witness_IllegalWordCompletesWithIllegalCmd :
    (busyWith 0x0C#32 (rig [])).status.busy = true ∧ (busyWith 0x0C#32 (rig [])).resetAsserted = false ∧
    (∀ i, decode (busyWith 0x0C#32 (rig [])).cmd ≠ .ok i) ∧ (busyWith 0x0C#32 (rig [])).turns = [] ∧
    ({ busyWith 0x0C#32 (rig []) with turns := [.engine, .host 0] } : State).turns = .engine :: [.host 0] :=
  ⟨rfl, rfl, fun _ h => by simp [show decode (busyWith 0x0C#32 (rig [])).cmd = .error .undefinedOpcode from rfl] at h,
    rfl, rfl⟩

theorem witness_FailingCommandWritesOnlyStatus :
    exec .modinv (withOps 2 4 0 (rig [])) = .next (after (exec .modinv (withOps 2 4 0 (rig [])))) ∧
    (after (exec .modinv (withOps 2 4 0 (rig [])))).status.err ≠ .ok := ⟨rfl, by decide⟩

theorem witness_CommandsKeepTheirInputs :
    exec .hillEnc (withKey 3 3 2 5 (rig hello)) = .next (after (exec .hillEnc (withKey 3 3 2 5 (rig hello)))) := rfl

theorem witness_OutcomeDependsOnlyOnRegistersRead :
    (withOps 3 20 0 (rig hello)).params.bufDepth = (withOps 3 20 99 (rig [])).params.bufDepth ∧
    (withOps 3 20 0 (rig hello)).ParamsLegal ∧ (withOps 3 20 0 (rig hello)).MemWf ∧
    (withOps 3 20 99 (rig [])).MemWf ∧
    readsOf .modinv (withOps 3 20 0 (rig hello)) = readsOf .modinv (withOps 3 20 99 (rig [])) ∧
    exec .modinv (withOps 3 20 0 (rig hello)) = .next (after (exec .modinv (withOps 3 20 0 (rig hello)))) ∧
    exec .modinv (withOps 3 20 99 (rig [])) = .next (after (exec .modinv (withOps 3 20 99 (rig [])))) ∧
    (after (exec .modinv (withOps 3 20 0 (rig hello)))).status.err = .ok :=
  ⟨rfl, rfl, rfl, rfl, rfl, rfl, rfl, by decide⟩

theorem witness_ModinvFollowsItsRule :
    s32 (withOps 3 0 0 (rig [])).op1 ≤ 0 ∧
    (1 ≤ s32 (withOps 2 4 0 (rig [])).op1 ∧
      Int.gcd (s32 (withOps 2 4 0 (rig [])).op0 % s32 (withOps 2 4 0 (rig [])).op1)
        (s32 (withOps 2 4 0 (rig [])).op1) ≠ 1) ∧
    s32 (withOps (-7) 1 0 (rig [])).op1 = 1 ∧
    (2 ≤ s32 (withOps 1 2 0 (rig [])).op1 ∧
      Int.gcd (s32 (withOps 1 2 0 (rig [])).op0 % s32 (withOps 1 2 0 (rig [])).op1)
        (s32 (withOps 1 2 0 (rig [])).op1) = 1) := by decide

theorem witness_ModpowFollowsItsRule :
    s32 (withOps 3 2 0 (rig [])).op2 ≤ 0 ∧
    (1 ≤ s32 (withOps 3 (-1) 1 (rig [])).op2 ∧ s32 (withOps 3 (-1) 1 (rig [])).op1 < 0) ∧
    (1 ≤ s32 (withOps 0 0 1 (rig [])).op2 ∧ 0 ≤ s32 (withOps 0 0 1 (rig [])).op1) := by decide

theorem witness_ModpowIsRepeatedMultiplication :
    0 ≤ s32 (withOps (-2) 0 1 (rig [])).op1 ∧ 1 ≤ s32 (withOps (-2) 0 1 (rig [])).op2 := by decide

/-- The hypotheses on IN_LEN and the buffers, shared by the buffer commands: too long, and the limit itself. -/
theorem witness_Txt2numFollowsItsRule :
    ({ rig hello with inLen := 9#32 } : State).params.bufDepth < u32 ({ rig hello with inLen := 9#32 } : State).inLen ∧
    (({ rig hello with inLen := 8#32 } : State).MemWf ∧
      u32 ({ rig hello with inLen := 8#32 } : State).inLen ≤
        ({ rig hello with inLen := 8#32 } : State).params.bufDepth) := by decide

theorem witness_Num2txtFollowsItsRule :
    ({ rig [] with inLen := 0xFFFFFFFF#32 } : State).params.bufDepth <
      u32 ({ rig [] with inLen := 0xFFFFFFFF#32 } : State).inLen ∧
    ((rig []).MemWf ∧ u32 (rig []).inLen ≤ (rig []).params.bufDepth) := by decide

theorem witness_HillEncFollowsItsRule :
    (rig hello).params.bufDepth < u32 ({ rig hello with inLen := 9#32 } : State).inLen ∧
    (u32 (rig hello).inLen ≤ (rig hello).params.bufDepth ∧ u32 (rig hello).keyLen ≠ 4) ∧
    (u32 (withKey 3 3 2 5 (rig hello)).keyLen = 4 ∧
      (lettersOf (input (withPolicy .reject (withKey 3 3 2 5 (rig hello))))).length % 2 = 1 ∧
      (withPolicy .reject (withKey 3 3 2 5 (rig hello))).ctrl.oddpol = .reject) ∧
    ((withKey 3 3 2 5 (rig hello)).ParamsLegal ∧ (withKey 3 3 2 5 (rig hello)).MemWf ∧
      u32 (withKey 3 3 2 5 (rig hello)).inLen ≤ (withKey 3 3 2 5 (rig hello)).params.bufDepth ∧
      u32 (withKey 3 3 2 5 (rig hello)).keyLen = 4 ∧
      (withKey 3 3 2 5 (rig hello)).ctrl.oddpol ≠ .reject) := by decide

theorem witness_DetFollowsItsRule :
    u32 (rig []).keyLen ≠ 4 ∧ u32 (withKey 2 4 6 8 (rig [])).keyLen = 4 := by decide

theorem witness_Matinv26FollowsItsRule :
    u32 (rig []).keyLen ≠ 4 ∧
    (u32 (withKey 13 0 0 1 (rig [])).keyLen = 4 ∧ Int.gcd (keyDet (withKey 13 0 0 1 (rig [])) % 26) 26 ≠ 1) ∧
    (u32 (withKey 3 3 2 5 (rig [])).keyLen = 4 ∧ Int.gcd (keyDet (withKey 3 3 2 5 (rig [])) % 26) 26 = 1) := by
  decide

theorem witness_HillDecFollowsItsRule :
    (rig hello).params.bufDepth < u32 ({ rig hello with inLen := 9#32 } : State).inLen ∧
    (u32 (rig hello).inLen ≤ (rig hello).params.bufDepth ∧ u32 (rig hello).keyLen ≠ 4) ∧
    (u32 (withKey 2 4 6 8 (rig [])).inLen ≤ (withKey 2 4 6 8 (rig [])).params.bufDepth ∧
      u32 (withKey 2 4 6 8 (rig [])).keyLen = 4 ∧ Int.gcd (keyDet (withKey 2 4 6 8 (rig [])) % 26) 26 ≠ 1) ∧
    (u32 (withKey 3 3 2 5 (rig hello)).keyLen = 4 ∧
      Int.gcd (keyDet (withPolicy .reject (withKey 3 3 2 5 (rig hello))) % 26) 26 = 1 ∧
      ((input (withPolicy .reject (withKey 3 3 2 5 (rig hello)))).map s32).length % 2 = 1 ∧
      (lettersOf (input (withPolicy .reject (withKey 3 3 2 5 (rig hello))))).length % 2 = 1 ∧
      (withPolicy .reject (withKey 3 3 2 5 (rig hello))).ctrl.oddpol = .reject) ∧
    ((withKey 3 3 2 5 (rig hello)).ParamsLegal ∧ (withKey 3 3 2 5 (rig hello)).MemWf ∧
      u32 (withKey 3 3 2 5 (rig hello)).inLen ≤ (withKey 3 3 2 5 (rig hello)).params.bufDepth ∧
      u32 (withKey 3 3 2 5 (rig hello)).keyLen = 4 ∧
      Int.gcd (keyDet (withKey 3 3 2 5 (rig hello)) % 26) 26 = 1 ∧
      (withKey 3 3 2 5 (rig hello)).ctrl.oddpol ≠ .reject) := by decide

/-- n out of range, phi out of range alone, phi = 0, gcd(5, 20) = 5, phi = 1, and (3, 11, 3). -/
theorem witness_RsaKeygenFollowsItsRule :
    ¬ INT32 (65536 * 65536) ∧
    (INT32 ((-46340) * (-46340)) ∧ ¬ INT32 ((-46340 - 1) * (-46340 - 1))) ∧
    (INT32 (1 * 5) ∧ INT32 ((1 - 1) * (5 - 1)) ∧ ((1 - 1) * (5 - 1) : Int) < 1) ∧
    (INT32 (3 * 11) ∧ INT32 ((3 - 1) * (11 - 1)) ∧ (1 : Int) ≤ (3 - 1) * (11 - 1) ∧
      Int.gcd (5 % ((3 - 1) * (11 - 1))) ((3 - 1) * (11 - 1)) ≠ 1) ∧
    (INT32 (2 * 2) ∧ ((2 - 1) * (2 - 1) : Int) = 1) ∧
    ((2 : Int) ≤ (3 - 1) * (11 - 1) ∧ Int.gcd (3 % ((3 - 1) * (11 - 1))) ((3 - 1) * (11 - 1)) = 1) ∧
    (s32 (withOps (-46340) 65536 3 (rig [])).op0 = -46340 ∧ s32 (withOps (-46340) 65536 3 (rig [])).op1 = 65536 ∧
      s32 (withOps (-46340) 65536 3 (rig [])).op2 = 3) := by decide

theorem witness_RsaEncAndDecFollowTheirRules :
    (rig hello).params.bufDepth < u32 ({ rig hello with inLen := 9#32 } : State).inLen ∧
    (u32 (rig hello).inLen ≤ (rig hello).params.bufDepth ∧ s32 (withOps 3 0 0 (rig hello)).op1 ≤ 0) ∧
    (1 ≤ s32 (withOps (-1) 1 0 (rig hello)).op1 ∧ s32 (withOps (-1) 1 0 (rig hello)).op0 < 0) ∧
    ((withOps 0 1 0 (rig hello)).MemWf ∧ 1 ≤ s32 (withOps 0 1 0 (rig hello)).op1 ∧
      0 ≤ s32 (withOps 0 1 0 (rig hello)).op0) := by decide

theorem witness_ModInverseFnMeetsItsRule :
    (1 : Int) ≤ 4 ∧ Int.gcd (2 % 4) 4 ≠ 1 ∧ (1 : Int) ≤ 1 ∧ (2 : Int) ≤ 7 ∧ Int.gcd (-3 % 7) 7 = 1 := by decide

theorem witness_ModPowFnMeetsItsRule : (0 : Int) ≤ 0 ∧ (1 : Int) ≤ 1 := by decide

theorem witness_InverseMatrixUndoesTheKey :
    invertMatrix26 ⟨3, 3, 2, 5⟩ = .ok ⟨⟨15, 17, 20, 9⟩, 9, 3⟩ ∧ ([0, 23] : List Int).length % 2 = 0 := by decide

theorem witness_HillOutputLengthFollowsThePolicy :
    ([7, 8, 14] : List Int).length % 2 = 1 ∧ ([7, 8] : List Int).length % 2 = 0 ∧
    (withPolicy .reject (rig [])).ctrl.oddpol = .reject := by decide

theorem witness_HillRoundTripGivesTheAdjustedCodes :
    ((withKey 3 3 2 5 (rig hello)).ParamsLegal ∧ (withKey 3 3 2 5 (rig hello)).MemWf ∧
      (withKey 3 3 2 5 (rig hello)).FillerLegal ∧
      u32 (withKey 3 3 2 5 (rig hello)).inLen ≤ (withKey 3 3 2 5 (rig hello)).params.bufDepth ∧
      u32 (withKey 3 3 2 5 (rig hello)).keyLen = 4 ∧
      Int.gcd (keyDet (withKey 3 3 2 5 (rig hello)) % 26) 26 = 1) ∧
    adjusted (withKey 3 3 2 5 (rig hello)).ctrl.oddpol (withKey 3 3 2 5 (rig hello)).ctrl.filler.toNat .enc
      (lettersOf (input (withKey 3 3 2 5 (rig hello)))) [7, 4, 11, 11, 14, 23] :=
  ⟨by decide, .inr (.inl (by decide))⟩

theorem witness_RsaRoundTripForDistinctPrimes :
    Nat.Prime 3 ∧ Nat.Prime 11 ∧ (3 : Nat) ≠ 11 ∧ (0 : Int) ≤ 3 ∧
    generateKeyPairFn 3 11 3 = .ok ⟨33, 7, 20⟩ ∧ (0 : Int) ≤ 32 ∧ (32 : Int) < 33 := by
  refine ⟨by norm_num, by norm_num, ?_⟩
  decide

theorem witness_WindowMapIsOneToOne :
    8 ≤ 256 ∧ (0xFFC < 4096 ∧ 0xFFC % 4 = 0) ∧ (0x41C < 4096 ∧ 0x41C % 4 = 0) ∧
    (Loc.inBuf 7).wellFormed 8 = true ∧ (Loc.outBuf 0).wellFormed 8 = true := by decide

/-- The port of `rig` is open. -/
theorem rig_portOpen (ws : List Word) : (rig ws).PortOpen :=
  ⟨show Params.wellFormed ⟨0x1000, 8⟩ = true by decide, rfl⟩

theorem witness_OtherWidthsAndAlignmentsGetABusError :
    (rig []).PortOpen ∧ (0x000 < 4096 ∧ (1 : Nat) ≠ 4) ∧ (0xFFF < 4096 ∧ 0xFFF % 4 ≠ 0) := by decide

theorem witness_AccessesThatAreNotServed :
    (⟨0xFFC, 4, none⟩ : Access).addr < (rig []).params.base ∧
    (rig []).params.base + 4096 ≤ (⟨0x2000, 4, none⟩ : Access).addr ∧
    ((rig []).params.base ≤ (⟨0x1000, 4, none⟩ : Access).addr ∧
      (⟨0x1000, 4, none⟩ : Access).addr < (rig []).params.base + 4096 ∧
      (assertReset (rig [])).resetAsserted = true) := by decide

theorem witness_CmdWriteIssuesWhenIdle :
    ((rig []).PortOpen ∧ (rig []).status.busy = false) ∧
    ((busyWith 1#32 (rig [])).PortOpen ∧ (busyWith 1#32 (rig [])).status.busy = true) := by decide

theorem witness_WriteWhileBusyIsDropped :
    (busyWith 1#32 (rig [])).PortOpen ∧ (busyWith 1#32 (rig [])).status.busy = true ∧
    (0x008 < 4096 ∧ 0x008 % 4 = 0 ∧ 0x008 ≠ 0x00C) ∧ (0xFFC < 4096 ∧ 0xFFC % 4 = 0 ∧ 0xFFC ≠ 0x00C) := by decide

theorem witness_StatusWriteIsWriteOneToClear : (busyWith 1#32 (rig [])).PortOpen := by decide

theorem witness_CtrlWriteFollowsItsFields :
    ((rig []).PortOpen ∧ (rig []).status.busy = false) ∧
    (0x1900#32).toNat / 2 ^ 8 % 2 ^ 5 ≤ 25 ∧ 26 ≤ (0x1A00#32).toNat / 2 ^ 8 % 2 ^ 5 := by decide

theorem witness_PlainWritesStoreTheWord :
    (rig []).PortOpen ∧ (rig []).status.busy = false ∧ 0 < (rig []).params.bufDepth ∧
    7 < (rig []).params.bufDepth := by decide

theorem witness_ReadOnlyWritesAreIgnored :
    (rig []).PortOpen ∧ (rig []).status.busy = false ∧
    0x054 ∈ [0x000, 0x004, 0x018, 0x040, 0x044, 0x048, 0x04C, 0x050, 0x054] ∧
    (∃ i, i < (rig []).params.bufDepth ∧ 0x81C = 0x800 + 4 * i) := ⟨by decide, by decide, by decide, 7, by decide⟩

theorem witness_ReservedOffsetsReadZeroAndIgnoreWrites :
    ((rig []).PortOpen ∧ (rig []).status.busy = false) ∧
    ((busyWith 1#32 (rig [])).PortOpen ∧ (busyWith 1#32 (rig [])).status.busy = true) ∧
    0x02C % 4 = 0 ∧ (0x058 ≤ 0x3FC ∧ 0x3FC ≤ 0x3FC ∧ 0x3FC % 4 = 0) ∧
    (0x400 + 4 * (rig []).params.bufDepth ≤ 0x420 ∧ 0x420 ≤ 0x7FC ∧ 0x420 % 4 = 0) ∧
    (0x800 + 4 * (rig []).params.bufDepth ≤ 0x820 ∧ 0x820 ≤ 0xBFC ∧ 0x820 % 4 = 0) ∧
    (0xC00 ≤ 0xFFC ∧ 0xFFC ≤ 0xFFC ∧ 0xFFC % 4 = 0) := by decide

theorem witness_ReadsReturnTheWordHeld :
    (rig hello).PortOpen ∧ (rig hello).MemWf ∧ (rig hello).status.busy = false ∧
    0 < (rig hello).mem.inBuf.length ∧ 7 < (rig hello).mem.outBuf.length := by decide

theorem witness_CtrlAndStatusReadByFields : (busyWith 1#32 (rig [])).PortOpen := by decide

theorem witness_BusyResultReadsAreUnspecified :
    (busyWith 1#32 (rig [])).PortOpen ∧ (busyWith 1#32 (rig [])).status.busy = true ∧
    0x054 ∈ [0x018, 0x040, 0x044, 0x048, 0x04C, 0x050, 0x054] ∧
    (∃ i, i < (busyWith 1#32 (rig [])).params.bufDepth ∧ 0x800 = 0x800 + 4 * i) :=
  ⟨by decide, by decide, by decide, 0, by decide⟩

theorem witness_ReadsHaveNoSideEffects :
    (accessAt (busyWith 1#32 (rig [])) 0x040 none).data = none ∧
    access (accessAt (busyWith 1#32 (rig [])) 0x040 none) (busyWith 1#32 (rig [])) =
      .next (bus (busyWith 1#32 (rig [])) 0x040 none) := ⟨rfl, rfl⟩

/-- One step of each kind that the STATUS rules speak of: an accepted CMD write, a completion, a STATUS write with
bits 1 and 2, a dropped write, a reset; all legal and all answering a next state. -/
theorem witness_StatusRules :
    (∀ s ∈ [{ rig [] with turns := [.access (accessAt (rig []) 0x010 (some 1#32))] },
        busyWith 1#32 (rig []),
        { busyWith 1#32 (rig []) with turns := [.access (accessAt (rig []) 0x00C (some 6#32))] },
        { busyWith 1#32 (rig []) with turns := [.access (accessAt (rig []) 0x020 (some 5#32))] },
        { busyWith 1#32 (rig []) with turns := [.resetAssert] }],
      s.ParamsLegal ∧ step s = .next (after (step s))) := by
  simp only [List.forall_mem_cons]
  exact ⟨⟨rfl, rfl⟩, ⟨rfl, rfl⟩, ⟨rfl, rfl⟩, ⟨rfl, rfl⟩, ⟨rfl, rfl⟩, by simp⟩

theorem witness_BusyFollowsIssueAndCompletion :
    (busyWith 1#32 (rig [])).ParamsLegal ∧
    step (busyWith 1#32 (rig [])) = .next (after (step (busyWith 1#32 (rig [])))) := ⟨rfl, rfl⟩

theorem witness_DoneFollowsCompletionAndAcknowledge :
    ({ rig [] with turns := [.access (accessAt (rig []) 0x00C (some 2#32))] } : State).ParamsLegal ∧
    step { rig [] with turns := [.access (accessAt (rig []) 0x00C (some 2#32))] } =
      .next { rig [] with reply := some .ack } := ⟨rfl, rfl⟩

theorem witness_WerrIsStickyUntilCleared :
    ({ busyWith 1#32 (rig []) with turns := [.access (accessAt (rig []) 0x020 (some 5#32))] } : State).ParamsLegal ∧
    step { busyWith 1#32 (rig []) with turns := [.access (accessAt (rig []) 0x020 (some 5#32))] } =
      .next { busyWith 1#32 (rig []) with
        status := { busy := true, done := false, werr := true, err := .ok }, reply := some .ack } := ⟨rfl, rfl⟩

theorem witness_IrqFollowsCompletion :
    exec .modinv (withOps 3 20 0 (rig [])) = .next (after (exec .modinv (withOps 3 20 0 (rig [])))) ∧
    ((rig []).PortOpen ∧ (rig []).status.busy = false ∧
      access (accessAt (rig []) 0x010 (some 1#32)) (rig []) = .next (bus (rig []) 0x010 (some 1#32))) ∧
    ((2#32 : Word).getLsbD 1 = true ∧
      access (accessAt (rig []) 0x00C (some 2#32)) (rig []) = .next (bus (rig []) 0x00C (some 2#32))) :=
  ⟨rfl, ⟨rig_portOpen [], rfl, rfl⟩, rfl, rfl⟩

theorem witness_ResetAssertAndReleaseHaveTheirEffect :
    ({ busyWith 5#32 (rig hello) with turns := [.resetAssert, .engine] } : State).turns =
      .resetAssert :: [.engine] ∧
    ({ assertReset (rig hello) with turns := [.resetRelease] } : State).turns = .resetRelease :: [] := ⟨rfl, rfl⟩

theorem witness_BootMeetsTheInvariant :
    Params.wellFormed ⟨0, 2⟩ = true ∧ Params.wellFormed ⟨0x1000, 256⟩ = true := by decide

theorem witness_StepKeepsTheInvariant :
    (busyWith 3#32 (rig hello)).Inv ∧
    step (busyWith 3#32 (rig hello)) = .next (after (step (busyWith 3#32 (rig hello)))) := ⟨by decide, rfl⟩

theorem witness_IdentificationNeverChanges :
    Reaches (busyWith 3#32 (rig hello)) (after (step (busyWith 3#32 (rig hello)))) := .tail .refl rfl

theorem witness_StepsStopOnlyAtAccessesAndMissingLabels :
    step { rig [] with turns := [.access ⟨0x2000, 4, none⟩] } = .fault (.outsideWindow 0x2000) ∧
    step { rig [] with resetAsserted := true, turns := [.access ⟨0x1000, 4, none⟩] } =
      .refused (.accessDuringReset 0x1000) ∧
    step { rig [] with hosts := [⟨[.jmp (.user 1)], 0, [], 0, 0⟩], turns := [.host 0] } =
      .refused (.noSuchLabel (.user 1)) := ⟨rfl, rfl, rfl⟩

/-- A `WR`, an `RD` and both halves of a READBUF's reads: the next line, the access's answer and the data. -/
theorem witness_HostLinesFollowTheirRule_access :
    (∃ h, (host [.wr (.op 0) (.imm 3#32)] 0).hosts[0]? = some h ∧ h.prog[h.pc]? = some (.wr (.op 0) (.imm 3#32)) ∧
      access (accessAt (host [.wr (.op 0) (.imm 3#32)] 0) 0x020 (some 3#32)) (host [.wr (.op 0) (.imm 3#32)] 0) =
        .next (bus (host [.wr (.op 0) (.imm 3#32)] 0) 0x020 (some 3#32))) ∧
    (∃ h, (host [.rd .cap .t] 0).hosts[0]? = some h ∧ h.prog[h.pc]? = some (.rd .cap .t) ∧
      access (accessAt (host [.rd .cap .t] 0) 0x004 none) (host [.rd .cap .t] 0) =
        .next (bus (host [.rd .cap .t] 0) 0x004 none) ∧
      (bus (host [.rd .cap .t] 0) 0x004 none).reply = some (.data 8#32)) ∧
    (∃ h, (reader 511 512#32).hosts[0]? = some h ∧ h.prog[h.pc]? = some (.rdElems 0) ∧
      h.reads < u32 (h.get (.len 0)) ∧
      access (accessAt (reader 511 512#32) (0x800 + 4 * h.reads) none) (reader 511 512#32) =
        .next (bus (reader 511 512#32) 0xFFC none) ∧
      (bus (reader 511 512#32) 0xFFC none).reply = some (.data 0#32)) ∧
    (∃ h, (reader 512 512#32).hosts[0]? = some h ∧ h.prog[h.pc]? = some (.rdElems 0) ∧
      u32 (h.get (.len 0)) ≤ h.reads) :=
  ⟨⟨_, rfl, rfl, rfl⟩, ⟨_, rfl, rfl, rfl, by decide⟩, ⟨_, rfl, rfl, by decide, rfl, by decide⟩,
    ⟨_, rfl, rfl, by decide⟩⟩

/-- Every kind of host-local line. -/
def localLines : List HostLine :=
  [.bset .t 0 (.user 7), .bset .t 31 (.user 7), .bclr .t 31 (.user 7), .bclr .t 0 (.user 7), .bne .t 2#32 (.user 7),
   .bne .t 1#32 (.user 7), .jmp (.user 7), .halt, .label (.user 7), .label (.user 7)]

/-- The host of `host localLines pc`. -/
def localHost (pc : Nat) : HostAgent := ⟨localLines, pc, [(.t, 1#32)], 0, 0⟩

/-- Each branch line with its condition met and not met (t = 1), the first of two labels, a missing label, `JMP`, `HALT`, a
label line, and a host past its last line. -/
theorem witness_HostLinesFollowTheirRule_local :
    (∀ i, i < 11 → (host localLines i).hosts[0]? = some (localHost i)) ∧
    ((localHost 0).prog[(localHost 0).pc]? = some (.bset .t 0 (.user 7)) ∧ ((localHost 0).get .t).getLsbD 0 = true) ∧
    ((localHost 1).prog[(localHost 1).pc]? = some (.bset .t 31 (.user 7)) ∧
      ((localHost 1).get .t).getLsbD 31 = false) ∧
    ((localHost 2).prog[(localHost 2).pc]? = some (.bclr .t 31 (.user 7)) ∧
      ((localHost 2).get .t).getLsbD 31 = false) ∧
    ((localHost 3).prog[(localHost 3).pc]? = some (.bclr .t 0 (.user 7)) ∧ ((localHost 3).get .t).getLsbD 0 = true) ∧
    ((localHost 4).prog[(localHost 4).pc]? = some (.bne .t 2#32 (.user 7)) ∧ (localHost 4).get .t ≠ 2#32) ∧
    ((localHost 5).prog[(localHost 5).pc]? = some (.bne .t 1#32 (.user 7)) ∧ (localHost 5).get .t = 1#32) ∧
    (localHost 6).prog[(localHost 6).pc]? = some (.jmp (.user 7)) ∧
    (localHost 7).prog[(localHost 7).pc]? = some .halt ∧
    (localHost 8).prog[(localHost 8).pc]? = some (.label (.user 7)) ∧
    (localHost 10).prog[(localHost 10).pc]? = none ∧
    ((localHost 6).prog[8]? = some (.label (.user 7)) ∧
      ∀ j, j < 8 → (localHost 6).prog[j]? ≠ some (.label (.user 7))) ∧
    HostLine.label (.user 8) ∉ (localHost 6).prog := by
  refine ⟨fun _ _ => rfl, ?_⟩
  decide

/-- A program that mixes plain lines with pseudo-instructions, as P1 does. -/
def mixed : List Pseudo :=
  [.loadBuf [.imm 7#32, .var .t], .loadText "AB", .run .modinv, .line (.bne .t 2#32 (.user 0)), .readBuf 0,
   .line .halt, .line (.label (.user 0)), .line .halt]

theorem witness_PseudoInstructionsExpandToTheirLines :
    (∀ l, Pseudo.line l ∈ mixed →
      (∀ reg, l.loc = some reg → reg.wellFormed 2 = true) ∧
      (∀ t, l.target = some t → (∃ n, t = .user n) ∧ Pseudo.line (.label t) ∈ mixed) ∧
      ∀ n, l ≠ .label (.fresh n)) ∧
    (∀ vs, Pseudo.loadBuf vs ∈ mixed → vs.length ≤ 2) ∧
    (∀ text, Pseudo.loadText text ∈ mixed → text.length ≤ 2) := by
  refine ⟨fun l h => ?_, fun vs h => ?_, fun text h => ?_⟩
  · simp only [mixed, List.mem_cons, Pseudo.line.injEq, reduceCtorEq, List.not_mem_nil, or_false, false_or] at h
    rcases h with rfl | rfl | rfl | rfl <;> simp [HostLine.loc, HostLine.target, mixed]
  · simp only [mixed, List.mem_cons, Pseudo.loadBuf.injEq, reduceCtorEq, List.not_mem_nil, or_false] at h
    rw [h]
    decide
  · simp only [mixed, List.mem_cons, Pseudo.loadText.injEq, reduceCtorEq, List.not_mem_nil, or_false, false_or] at h
    rw [h]
    decide

end Sys2Proof.Tests
end

/-!
The invariant of the machine is kept by every step. Each operation that a step can make has its lemma here; `step_cases`
puts them together.
-/

namespace Sys2Proof.Machine

/-- A new STATUS keeps the invariant when it is clean while busy and idle while reset is asserted. -/
theorem State.Inv.with_status {s : State} (h : s.Inv) (t : Status)
    (clean : t.busy = true → t.done = false ∧ t.err = .ok)
    (idle : s.resetAsserted = true → t.busy = false) : State.Inv { s with status := t } := by
  obtain ⟨hparams, hmem, hfiller, -, hout, -⟩ := h
  exact ⟨hparams, hmem, hfiller, clean, hout, idle⟩

/-! ### The engine's move -/

/-- The word of a length reads at most that length: it is taken modulo 2^32 (R9). -/
theorem u32_word_natCast_le (n : Nat) : u32 (word n) ≤ n := by
  rw [u32, word, BitVec.ofInt_natCast, BitVec.toNat_ofNat]
  exact Nat.mod_le _ _

/-- A command that completes leaves the engine idle, so its STATUS meets the invariant whatever its outcome (R103). -/
theorem State.Inv.with_finished {s : State} (h : s.Inv) (v : State) (c : Completion) :
    State.Inv { s with status := finished v c } :=
  h.with_status (finished v c) (fun hbusy => Bool.noConfusion hbusy) (fun _ => rfl)

/-- The RES registers are no part of the invariant. -/
theorem setRegs_keeps_inv (ws : List (ResReg × Word)) (s : State) (h : s.Inv) : (s.setRegs ws).Inv := by
  simpa [State.Inv, State.ParamsLegal, State.MemWf, State.FillerLegal, State.BusyClean, State.OutLenFits,
    State.ResetIdle] using h

/-- A commit keeps the invariant when the output it writes, if any, fits the buffer (R35, R155). -/
theorem commit_keeps_inv (r : CmdResult) (s : State) (h : s.Inv)
    (fits : ∀ ws, r = .ok (.buffer ws) → ws.length ≤ s.params.bufDepth) : (commit r s).Inv := by
  rcases commit_cases r s with ⟨e, -, hc⟩ | ⟨ws, -, hc⟩ | ⟨ws, hr, hc⟩ <;> rw [hc]
  · exact h.with_finished s (.err e)
  · exact (setRegs_keeps_inv ws s h).with_finished s .ok
  · obtain ⟨hparams, hmem, hfiller, hclean, hout, hidle⟩ := h.with_finished s .ok
    exact ⟨hparams, (writeOut_wf _ _ _).trans hmem, hfiller, hclean,
      (u32_word_natCast_le ws.length).trans (fits ws hr), hidle⟩

/-! ### The bus -/

/-- FILLER stays legal: an illegal value keeps the old one (R27). -/
theorem ctrl_write_filler_le (c : Ctrl) (v : Word) (h : c.filler.toNat ≤ 25) :
    (c.write v).filler.toNat ≤ 25 := by
  simp only [Ctrl.write]
  split
  · exact Nat.le_of_lt_succ ‹_›
  · exact h

/-- An issued command starts with a clean STATUS (R99). -/
theorem issue_keeps_inv (v : Word) (s : State) (h : s.Inv) (hr : s.resetAsserted = false) : (issue v s).Inv :=
  h.with_status s.status.issued (fun _ => ⟨rfl, rfl⟩) (fun ha => absurd ha (by simp [hr]))

/-- Clearing STATUS bits leaves a busy STATUS clean (R30, R31). -/
theorem acknowledge_keeps_inv (v : Word) (s : State) (h : s.Inv) : (acknowledge v s).Inv := by
  have ⟨_, _, _, hclean, _, hidle⟩ := h
  refine h.with_status (s.status.write v) (fun hbusy => ?_) hidle
  obtain ⟨hdone, herr⟩ := hclean hbusy
  exact ⟨by simp [hdone], herr⟩

/-- An idle write touches the invariant's fields in three ways alone: CMD issues, CTRL takes a legal FILLER, and IN[i]
stores a word. -/
theorem writeIdle_keeps_inv (l : Loc) (v : Word) (s : State) (h : s.Inv) (hr : s.resetAsserted = false) :
    (writeIdle l v s).Inv := by
  cases l with
  | cmd => exact issue_keeps_inv v s h hr
  | ctrl =>
    obtain ⟨hparams, hmem, hfiller, hclean, hout, hidle⟩ := h
    exact ⟨hparams, hmem, ctrl_write_filler_le s.ctrl v hfiller, hclean, hout, hidle⟩
  | inBuf i =>
    obtain ⟨hparams, hmem, hfiller, hclean, hout, hidle⟩ := h
    exact ⟨hparams, (writeIn_wf _ _ _ _).trans hmem, hfiller, hclean, hout, hidle⟩
  | op k => fin_cases k <;> exact h
  | key k => fin_cases k <;> exact h
  | _ => exact h

theorem writeLoc_keeps_inv (l : Loc) (v : Word) (s : State) (h : s.Inv) (hr : s.resetAsserted = false) :
    (writeLoc l v s).Inv := by
  rcases writeLoc_cases l v s with ⟨-, e⟩ | ⟨-, -, e⟩ | ⟨-, -, e⟩ <;> rw [e]
  · exact acknowledge_keeps_inv v s h
  · have ⟨_, _, _, hclean, _, hidle⟩ := h
    exact h.with_status s.status.dropped hclean hidle
  · exact writeIdle_keeps_inv l v s h hr

theorem readLoc_keeps_inv (l : Loc) (s : State) (h : s.Inv) : (readLoc l s).2.Inv := by
  rcases readLoc_cases l s with ⟨-, e⟩ | ⟨-, e⟩ <;> rw [e] <;> exact h

theorem transfer_keeps_inv (off : Nat) (data : Option Word) (s : State) (h : s.Inv)
    (hr : s.resetAsserted = false) : (transfer off data s).Inv := by
  cases data with
  | none =>
    rw [transfer_read]
    exact readLoc_keeps_inv (locate s.params.bufDepth off) s h
  | some v =>
    rw [transfer_write]
    exact writeLoc_keeps_inv (locate s.params.bufDepth off) v s h hr

/-- An access that is served keeps the invariant; one made while reset is asserted is not served (R232). -/
theorem access_keeps_inv (a : Access) (s t : State) (h : s.Inv) (ha : access a s = .next t) : t.Inv := by
  rcases access_cases a s with ⟨-, e⟩ | ⟨-, -, e⟩ | ⟨-, -, -, e⟩ | ⟨-, hr, -, e⟩ <;>
    rw [e] at ha <;> cases ha
  · exact h
  · exact transfer_keeps_inv _ _ s h hr

/-! ### Reset -/

/-- Asserting reset establishes every part of the invariant but the parameters, which it keeps (R230). -/
theorem assertReset_keeps_inv (s : State) (h : s.Inv) : (assertReset s).Inv := by
  obtain ⟨hparams, -⟩ := h
  obtain ⟨-, -, -, -, -, hmem, -⟩ := assertReset_eq s
  exact ⟨hparams, hmem, (by decide : (23#5).toNat ≤ 25), fun hbusy => Bool.noConfusion hbusy, Nat.zero_le _,
    fun _ => rfl⟩

theorem releaseReset_keeps_inv (s : State) (h : s.Inv) : (releaseReset s).Inv := by
  obtain ⟨hparams, hmem, hfiller, hclean, hout, -⟩ := h
  exact ⟨hparams, hmem, hfiller, hclean, hout, fun ha => Bool.noConfusion ha⟩

/-! ### The step -/

/-- Settles O56, move by move: the fact it turns on is that the output of a command always fits
(`resultOf_buffer_fits`). -/
theorem stepKeepsTheInvariant : Obligations.StepKeepsTheInvariant := by
  intro s t hs hstep
  obtain ⟨u, ⟨ts, hu⟩, hmove⟩ := step_cases s t hstep
  have h : u.Inv := hu ▸ hs
  rcases hmove with ⟨-, -, -, hosts, rfl⟩ | ⟨-, -, -, r, hr, rfl⟩ | ⟨a, v, -, -, -, ha, hosts, rfl⟩ |
    ⟨-, -, -, rfl⟩ | ⟨-, -, -, rfl⟩
  · exact h
  · refine commit_keeps_inv r u h fun ws hw => ?_
    have ⟨hparams, _⟩ := h
    obtain rfl | ⟨i, -, rfl⟩ := hr
    · cases hw
    · exact resultOf_buffer_fits i u ws hparams hw
  · exact access_keeps_inv a u v h ha
  · exact assertReset_keeps_inv u h
  · exact releaseReset_keeps_inv u h

end Sys2Proof.Machine

/-!
The register window and the fields of CTRL and STATUS, as the bus sees them (10_state.md, 20_memory.md): one rule for a read,
one for an idle write, one for a STATUS write, and one numeric reading for each packed word.
-/

namespace Sys2Proof.Machine

/-! ### Reads and writes at an offset -/

/-- A read in an open port answers the word held and changes nothing else, unless it is of a result while busy (R70, R73). -/
theorem access_read_held (s : State) (off : Nat) (hp : s.PortOpen)
    (hl : ¬ (s.status.busy = true ∧ isResult (locate s.params.bufDepth off) = true))
    (hoff : off < 4096 := by omega) (h4 : off % 4 = 0 := by omega) :
    access (accessAt s off none) s =
      .next { s with reply := some (.data (s.wordAt (locate s.params.bufDepth off))) } := by
  rw [accessAt_eq s off none hp hoff h4, transfer_read]
  rcases readLoc_cases (locate s.params.bufDepth off) s with ⟨-, e⟩ | ⟨hbusy, -⟩
  · rw [e]
  · exact absurd hbusy hl

/-- An idle write to an offset other than STATUS is the idle write of the location there (R72). -/
theorem access_write_idle (s : State) (off : Nat) (v : Word) (hp : s.PortOpen) (hidle : s.status.busy = false)
    (hne : off ≠ 0x00C := by omega) (hoff : off < 4096 := by omega) (h4 : off % 4 = 0 := by omega) :
    access (accessAt s off (some v)) s =
      .next { writeIdle (locate s.params.bufDepth off) v s with reply := some .ack } := by
  rw [accessAt_eq s off (some v) hp hoff h4, transfer_write]
  rcases writeLoc_cases (locate s.params.bufDepth off) v s with ⟨hs, -⟩ | ⟨-, hbusy, -⟩ | ⟨-, -, e⟩
  · exact absurd ((locate_eq_status_iff _ off).mp hs) hne
  · simp [hidle] at hbusy
  · rw [e]

/-- A STATUS write acknowledges, in either phase (R72). -/
theorem access_write_status (s : State) (v : Word) (hp : s.PortOpen) :
    access (accessAt s 0x00C (some v)) s = .next { acknowledge v s with reply := some .ack } :=
  accessAt_eq s 0x00C (some v) hp (by omega) (by omega)

/-- The depth of a legal engine fits the sixteen bits that CAP gives it (R23). -/
theorem wordAt_cap (s : State) (hp : s.ParamsLegal) : s.wordAt .cap = BitVec.ofNat 32 s.params.bufDepth := by
  obtain ⟨-, -, -, hdepth⟩ := (params_wellFormed_iff _).mp hp
  apply BitVec.eq_of_toNat_eq
  simp only [State.wordAt, BitVec.toNat_append, BitVec.toNat_ofNat, Nat.zero_mod, Nat.zero_shiftLeft, Nat.zero_or]
  omega

theorem readIn_eq_getElem (m : Memory) (i : Nat) (h : i < m.inBuf.length) : m.readIn i = m.inBuf[i] :=
  List.getD_eq_getElem m.inBuf 0#32 h

theorem readOut_eq_getElem (m : Memory) (i : Nat) (h : i < m.outBuf.length) : m.readOut i = m.outBuf[i] :=
  List.getD_eq_getElem m.outBuf 0#32 h

/-! ### Packed words -/

/-- Concatenation of bit vectors, as a sum. -/
theorem toNat_append_eq_add {m n : Nat} (x : BitVec m) (y : BitVec n) :
    (x ++ y).toNat = x.toNat * 2 ^ n + y.toNat := by
  rw [BitVec.toNat_append, ← Nat.shiftLeft_add_eq_or_of_lt y.isLt, Nat.shiftLeft_eq]

/-- CTRL as a number (R24). -/
theorem ctrl_toWord_toNat (c : Ctrl) :
    c.toWord.toNat = c.oddpol.bits.toNat + 2 ^ 2 * c.ie.toNat + 2 ^ 8 * c.filler.toNat := by
  simp only [Ctrl.toWord, toNat_append_eq_add, BitVec.toNat_ofBool, BitVec.toNat_ofNat]
  omega

/-- STATUS as a number (R28). -/
theorem status_toWord_toNat (t : Status) :
    t.toWord.toNat = t.busy.toNat + 2 * t.done.toNat + 2 ^ 2 * t.werr.toNat + 2 ^ 8 * t.err.code.toNat := by
  simp only [Status.toWord, toNat_append_eq_add, BitVec.toNat_ofBool, BitVec.toNat_ofNat]
  omega

/-- The policy that two bits select has these bits (R25). -/
theorem oddPolicy_bits_ofBits : ∀ b : BitVec 2, (OddPolicy.ofBits b).bits = b := by decide

/-- ODDPOL after a CTRL write is bits 1:0 of the word (R25). -/
theorem ctrl_write_oddpol (c : Ctrl) (v : Word) : (c.write v).oddpol.bits.toNat = v.toNat % 4 := by
  rw [Ctrl.write, oddPolicy_bits_ofBits, BitVec.extractLsb'_toNat, Nat.shiftRight_zero]

/-- FILLER after a CTRL write is bits 12:8 of the word when they are legal, and the old one otherwise (R27). -/
theorem ctrl_write_filler (c : Ctrl) (v : Word) :
    (v.toNat / 2 ^ 8 % 2 ^ 5 ≤ 25 → (c.write v).filler.toNat = v.toNat / 2 ^ 8 % 2 ^ 5) ∧
    (26 ≤ v.toNat / 2 ^ 8 % 2 ^ 5 → (c.write v).filler = c.filler) := by
  have field : (v.extractLsb' 8 5).toNat = v.toNat / 2 ^ 8 % 2 ^ 5 := by
    rw [BitVec.extractLsb'_toNat, Nat.shiftRight_eq_div_pow]
  rw [← field]
  constructor
  · intro hlegal
    exact congrArg BitVec.toNat (if_pos (Nat.lt_succ_of_le hlegal))
  · intro hillegal
    exact if_neg (Nat.not_lt.mpr hillegal)

/-! ### The obligations -/

/-- Settles O40. -/
theorem ctrlWriteFollowsItsFields : Obligations.CtrlWriteFollowsItsFields := by
  intro s v hp hidle
  exact ⟨s.ctrl.write v, access_write_idle s 0x008 v hp hidle, ctrl_write_oddpol s.ctrl v, rfl,
    ctrl_write_filler s.ctrl v⟩

/-- Settles O41: at each offset stands its register, and the idle write of that location stores the word. -/
theorem plainWritesStoreTheWord : Obligations.PlainWritesStoreTheWord := by
  intro s v hp hidle
  obtain ⟨-, -, -, hdepth⟩ := (params_wellFormed_iff _).mp hp.1
  refine ⟨access_write_idle s 0x014 v hp hidle, access_write_idle s 0x01C v hp hidle,
    access_write_idle s 0x020 v hp hidle, access_write_idle s 0x024 v hp hidle,
    access_write_idle s 0x028 v hp hidle, access_write_idle s 0x030 v hp hidle,
    access_write_idle s 0x034 v hp hidle, access_write_idle s 0x038 v hp hidle,
    access_write_idle s 0x03C v hp hidle, fun i hi => ?_⟩
  rw [access_write_idle s (0x400 + 4 * i) v hp hidle, locate_inBuf _ i hi]
  rfl

/-- Settles O44: each register is no result or the engine is idle, so the read answers the word held there. -/
theorem readsReturnTheWordHeld : Obligations.ReadsReturnTheWordHeld := by
  intro s hp hmem
  obtain ⟨-, -, -, hdepth⟩ := (params_wellFormed_iff _).mp hp.1
  obtain ⟨hin, hout⟩ := (memory_wf_iff _ _).mp hmem
  refine ⟨fun off w hw => ?_, fun i hi => ?_, fun hidle => ⟨fun off w hw => ?_, fun i hi => ?_⟩⟩
  · have held : off < 4096 ∧ off % 4 = 0 ∧ isResult (locate s.params.bufDepth off) = false ∧
        s.wordAt (locate s.params.bufDepth off) = w := by
      simp only [List.mem_cons, Prod.mk.injEq, List.not_mem_nil, or_false] at hw
      rcases hw with h | ⟨rfl, rfl⟩ | h | h | h | h | h | h | h | h | h | h
      case inr.inl => exact ⟨by omega, by omega, rfl, wordAt_cap s hp.1⟩
      all_goals
        obtain ⟨rfl, rfl⟩ := h
        exact ⟨by omega, by omega, rfl, rfl⟩
    obtain ⟨hoff, h4, hres, rfl⟩ := held
    exact access_read_held s off hp (by simp [hres])
  · have hloc := locate_inBuf s.params.bufDepth i (hin ▸ hi)
    rw [access_read_held s (0x400 + 4 * i) hp (by simp [hloc, isResult]), hloc, State.wordAt,
      readIn_eq_getElem s.mem i hi]
  · have held : off < 4096 ∧ off % 4 = 0 ∧ s.wordAt (locate s.params.bufDepth off) = w := by
      simp only [List.mem_cons, Prod.mk.injEq, List.not_mem_nil, or_false] at hw
      rcases hw with h | h | h | h | h | h | h <;>
        obtain ⟨rfl, rfl⟩ := h <;> exact ⟨by omega, by omega, rfl⟩
    obtain ⟨hoff, h4, rfl⟩ := held
    exact access_read_held s off hp (by simp [hidle])
  · rw [access_read_held s (0x800 + 4 * i) hp (by simp [hidle]), locate_outBuf _ i (hout ▸ hi) hdepth,
      State.wordAt, readOut_eq_getElem s.mem i hi]

/-- Settles O45. -/
theorem ctrlAndStatusReadByFields : Obligations.CtrlAndStatusReadByFields := by
  intro s hp
  exact ⟨⟨s.ctrl.toWord, access_read_held s 0x008 hp (by simp [locate, isResult]), ctrl_toWord_toNat s.ctrl⟩,
    ⟨s.status.toWord, access_read_held s 0x00C hp (by simp [locate, isResult]), status_toWord_toNat s.status⟩⟩

/-- Settles O51. -/
theorem irqFollowsCompletion : Obligations.IrqFollowsCompletion := by
  refine ⟨fun s => ?_, fun i s t ht => ?_, fun s t v hp hidle ht => ?_, fun s t v hp hv ht => ?_⟩
  · rw [State.irq, Bool.and_eq_true]
  · rw [exec_eq_commit] at ht
    obtain rfl := Host.Outcome.next.inj ht
    obtain ⟨-, hctrl, -⟩ := commit_frame (resultOf i s) s
    simp [State.irq, hctrl, finished]
  · rw [access_write_idle s 0x010 v hp hidle] at ht
    obtain rfl := Host.Outcome.next.inj ht
    simp [State.irq, locate, writeIdle]
  · rw [access_write_status s v hp] at ht
    obtain rfl := Host.Outcome.next.inj ht
    simp [State.irq, acknowledge, hv]

end Sys2Proof.Machine

/-!
How a step changes STATUS (R29 to R31): every step is one of six kinds, and in each kind it is known which of the events that
set or clear a bit took place. The three bits' rules follow kind by kind.
-/

namespace Sys2Proof.Machine

/-! ### The events of a move -/

@[simp] theorem accessAt_inj (s : State) (off off' : Nat) (d d' : Option Word) :
    accessAt s off d = accessAt s off' d' ↔ off = off' ∧ d = d' := by
  simp [accessAt]

/-- The engine's move makes no access. -/
theorem nextAccess_of_completesCommand {s : State} (h : completesCommand s) : nextAccess s = none := by
  obtain ⟨hmove, -⟩ := h
  simp [nextAccess, hmove]

/-- A reset move makes no access. -/
theorem nextAccess_of_resetAssert {s : State} (h : (nextMove s).1 = .resetAssert) : nextAccess s = none := by
  simp [nextAccess, h]

theorem not_resetAssert_of_completesCommand {s : State} (h : completesCommand s) :
    (nextMove s).1 ≠ .resetAssert := by
  obtain ⟨hmove, -⟩ := h
  simp [hmove]

section NoAccess
variable {s : State} (h : nextAccess s = none)
include h

theorem not_acceptsCommand_of_no_access (v : Word) : ¬ acceptsCommand s v := by
  simp [acceptsCommand, h]

theorem not_clearsBit_of_no_access (b : Nat) : ¬ clearsBit s b := by
  simp [clearsBit, h]

theorem not_dropsWrite_of_no_access : ¬ dropsWrite s := by
  simp [dropsWrite, h]

end NoAccess

section Write
variable {s : State} {off : Nat} {w : Word} (h : nextAccess s = some (accessAt s off (some w)))
include h

/-- A move that makes an access is not the engine's. -/
theorem not_completesCommand_of_write : ¬ completesCommand s := fun hc => by
  simp [nextAccess_of_completesCommand hc] at h

/-- A move that makes an access asserts no reset. -/
theorem not_resetAssert_of_write : (nextMove s).1 ≠ .resetAssert := fun hr => by
  simp [nextAccess_of_resetAssert hr] at h

theorem acceptsCommand_iff_of_write (v : Word) :
    acceptsCommand s v ↔ off = 0x010 ∧ w = v ∧ s.status.busy = false := by
  simp [acceptsCommand, h, and_assoc]

theorem clearsBit_iff_of_write (b : Nat) : clearsBit s b ↔ off = 0x00C ∧ w.getLsbD b = true := by
  simp [clearsBit, h]

theorem dropsWrite_iff_of_write :
    dropsWrite s ↔ off < 4096 ∧ off % 4 = 0 ∧ off ≠ 0x00C ∧ s.status.busy = true := by
  simp [dropsWrite, h]

end Write

/-! ### The six kinds of step -/

/-- `StatusMove s t`: `t` is the STATUS that the next move leaves, by the kind of the move. -/
inductive StatusMove (s : State) : Status → Prop where
  /-- None of the events takes place, and STATUS stays. -/
  | untouched : ¬ completesCommand s → (nextMove s).1 ≠ .resetAssert → (∀ v, ¬ acceptsCommand s v) →
      (∀ b, ¬ clearsBit s b) → ¬ dropsWrite s → StatusMove s s.status
  /-- The engine completes the command in flight (R103). -/
  | completed (c : Completion) : completesCommand s → StatusMove s (finished s c)
  /-- A STATUS write (R30, R31). -/
  | written (w : Word) : nextAccess s = some (accessAt s 0x00C (some w)) → StatusMove s (s.status.write w)
  /-- An accepted CMD write (R99). -/
  | issued (w : Word) : nextAccess s = some (accessAt s 0x010 (some w)) → s.status.busy = false →
      StatusMove s s.status.issued
  /-- A write that is dropped because the engine is busy (R72). -/
  | dropped (off : Nat) (w : Word) : nextAccess s = some (accessAt s off (some w)) → off < 4096 → off % 4 = 0 →
      off ≠ 0x00C → s.status.busy = true → StatusMove s s.status.dropped
  /-- Reset is asserted (R230). -/
  | reset : (nextMove s).1 = .resetAssert →
      StatusMove s { busy := false, done := false, werr := false, err := .ok }

/-- A move without an access that is neither the engine's step nor a reset leaves STATUS. -/
theorem StatusMove.of_no_access {s : State} (hn : nextAccess s = none) (hc : ¬ completesCommand s)
    (hr : (nextMove s).1 ≠ .resetAssert) : StatusMove s s.status :=
  .untouched hc hr (not_acceptsCommand_of_no_access hn) (not_clearsBit_of_no_access hn)
    (not_dropsWrite_of_no_access hn)

/-- The access of the next move, made on the state without the turn taken, changes STATUS by its kind. -/
theorem StatusMove.of_access {s v : State} {ts : List Turn} {a : Access} (hp : s.ParamsLegal)
    (hn : nextAccess s = some a) (hc : ¬ completesCommand s) (hr : (nextMove s).1 ≠ .resetAssert)
    (ha : access a { s with turns := ts } = .next v) : StatusMove s v.status := by
  rcases access_status_cases a { s with turns := ts } v hp ha with ⟨e, hstatus, hcmd, hdrop⟩ | ⟨w, rfl, e⟩ |
    ⟨w, rfl, hidle, e⟩ | ⟨off, w, hoff, h4, hne, rfl, hbusy, e⟩ <;> rw [e]
  · refine .untouched hc hr ?_ ?_ ?_
    · rintro w ⟨hw, hidle⟩
      exact hcmd hidle w (Option.some.inj (hn.symm.trans hw))
    · rintro b ⟨w, hw, -⟩
      exact hstatus w (Option.some.inj (hn.symm.trans hw))
    · rintro ⟨off, w, hoff, h4, hne, hw, hbusy⟩
      exact hdrop hbusy off w hoff h4 hne (Option.some.inj (hn.symm.trans hw))
  · exact .written w hn
  · exact .issued w hn hidle
  · exact .dropped off w hn hoff h4 hne hbusy

/-- Every step is of one of the six kinds. -/
theorem step_statusMove (s t : State) (hp : s.ParamsLegal) (h : step s = .next t) : StatusMove s t.status := by
  obtain ⟨u, ⟨ts, rfl⟩, hmove⟩ := step_cases s t h
  rcases hmove with ⟨hn, hc, hr, hosts, rfl⟩ | ⟨-, hc, -, r, -, rfl⟩ | ⟨a, v, hn, hc, hr, ha, hosts, rfl⟩ |
    ⟨-, -, hr, rfl⟩ | ⟨hn, hc, hr, rfl⟩
  · exact .of_no_access hn hc hr
  · rw [commit_status]
    exact .completed (completionOf r) hc
  · exact .of_access (v := v) hp hn hc hr ha
  · exact .reset hr
  · exact .of_no_access hn hc (by simp [hr])

/-! ### The three bits -/

/-- Settles O48, by the kind of the step. -/
theorem busyFollowsIssueAndCompletion : Obligations.BusyFollowsIssueAndCompletion := by
  intro s t hp hstep
  have hmove := step_statusMove s t hp hstep
  generalize t.status = after at hmove ⊢
  cases hmove with
  | untouched hc hr hcmd => simp [hc, hr, hcmd]
  | completed c hc =>
    have hcmd := not_acceptsCommand_of_no_access (nextAccess_of_completesCommand hc)
    simp [finished, hc, hcmd]
  | written w hw =>
    simp [acceptsCommand_iff_of_write hw, not_completesCommand_of_write hw, not_resetAssert_of_write hw]
  | issued w hw hidle => simp [acceptsCommand_iff_of_write hw, hidle]
  | dropped off w hw _ _ _ hbusy =>
    simp [hbusy, not_completesCommand_of_write hw, not_resetAssert_of_write hw]
  | reset hr => simp [hr, not_acceptsCommand_of_no_access (nextAccess_of_resetAssert hr)]

/-- Settles O49, by the kind of the step. -/
theorem doneFollowsCompletionAndAcknowledge : Obligations.DoneFollowsCompletionAndAcknowledge := by
  intro s t hp hstep
  have hmove := step_statusMove s t hp hstep
  generalize t.status = after at hmove ⊢
  cases hmove with
  | untouched hc hr hcmd hclear => simp [hc, hr, hcmd, hclear]
  | completed c hc => simp [finished, hc]
  | written w hw =>
    simp [not_completesCommand_of_write hw, not_resetAssert_of_write hw, acceptsCommand_iff_of_write hw,
      clearsBit_iff_of_write hw]
  | issued w hw hidle => simp [not_completesCommand_of_write hw, acceptsCommand_iff_of_write hw, hidle]
  | dropped off w hw _ _ hne hbusy =>
    simp [not_completesCommand_of_write hw, not_resetAssert_of_write hw, acceptsCommand_iff_of_write hw,
      clearsBit_iff_of_write hw, hne, hbusy]
  | reset hr =>
    have hc : ¬ completesCommand s := fun hc => not_resetAssert_of_completesCommand hc hr
    simp [hc, hr]

/-- Settles O50, by the kind of the step. -/
theorem werrIsStickyUntilCleared : Obligations.WerrIsStickyUntilCleared := by
  intro s t hp hstep
  have hmove := step_statusMove s t hp hstep
  generalize t.status = after at hmove ⊢
  cases hmove with
  | untouched _ hr _ hclear hdrop => simp [hr, hclear, hdrop]
  | completed c hc =>
    have hn := nextAccess_of_completesCommand hc
    simp [finished, not_dropsWrite_of_no_access hn, not_clearsBit_of_no_access hn,
      not_resetAssert_of_completesCommand hc]
  | written w hw => simp [dropsWrite_iff_of_write hw, clearsBit_iff_of_write hw, not_resetAssert_of_write hw]
  | issued w hw hidle =>
    simp [dropsWrite_iff_of_write hw, clearsBit_iff_of_write hw, not_resetAssert_of_write hw, hidle]
  | dropped off w hw hoff h4 hne hbusy => simp [dropsWrite_iff_of_write hw, hoff, h4, hne, hbusy]
  | reset hr => simp [hr, not_dropsWrite_of_no_access (nextAccess_of_resetAssert hr)]

end Sys2Proof.Machine

/-!
The engine at rest and at the beginning of a run: the idle engine's turn (R43), the values after reset (R47), and the
parameters, which no step changes (R7).
-/

namespace Sys2Proof.Machine

/-! ### The idle engine -/

/-- The turn of an engine that is not busy changes nothing (R43). -/
theorem engineTurn_of_idle (s : State) (h : s.status.busy = false) : engineTurn s = .next s := by
  rw [engineTurn, State.engineEnabled, h]
  rfl

/-- Settles O8. -/
theorem idleEngineTakesNoStep : Obligations.IdleEngineTakesNoStep := by
  intro s hidle
  refine ⟨fun hnil => ?_, fun ts hcons => ?_⟩
  · rw [step, nextMove_nil s hnil]
    exact engineTurn_of_idle s hidle
  · rw [step, nextMove_cons s .engine ts hcons]
    exact engineTurn_of_idle { s with turns := ts } hidle

/-! ### Reset -/

/-- Settles O54: every value but CAP's is the field's own; CAP shows the default depth. -/
theorem resetStateHasTheStatedValues : Obligations.ResetStateHasTheStatedValues := by
  refine ⟨by decide, by decide, rfl, by decide, rfl, rfl, rfl, rfl, fun k => ?_, fun k => ?_, fun k => ?_,
    rfl, rfl⟩
  all_goals fin_cases k <;> rfl

/-- The parameters of `State.reset` are legal: its window begins on a page, whichever page that is. -/
theorem resetParams_wellFormed : State.resetParams.wellFormed = true :=
  (params_wellFormed_iff _).mpr ⟨Nat.mul_mod_right _ _, rfl, by decide, le_rfl⟩

/-- A run begins in the invariant (R47, R233). -/
theorem boot_inv (p : Params) (hosts : List HostAgent) (turns : List Turn) (hp : p.wellFormed = true) :
    (State.boot p hosts turns).Inv :=
  ⟨hp, freeWords_wf _ _ _, (by decide : (23#5).toNat ≤ 25), fun hbusy => Bool.noConfusion hbusy,
    Nat.zero_le _, fun _ => rfl⟩

/-- Settles O55: `State.reset` is a boot with nobody on the bus. -/
theorem bootMeetsTheInvariant : Obligations.BootMeetsTheInvariant :=
  ⟨boot_inv, boot_inv State.resetParams [] [] resetParams_wellFormed⟩

/-! ### The parameters -/

theorem readLoc_params (l : Loc) (s : State) : (readLoc l s).2.params = s.params := by
  rcases readLoc_cases l s with ⟨-, e⟩ | ⟨-, e⟩ <;> rw [e]

theorem transfer_params (off : Nat) (d : Option Word) (s : State) : (transfer off d s).params = s.params := by
  cases d with
  | none => exact readLoc_params _ s
  | some v =>
    obtain ⟨hparams, -⟩ := writeLoc_frame (locate s.params.bufDepth off) v s
    exact hparams

theorem access_params (a : Access) (s t : State) (h : access a s = .next t) : t.params = s.params := by
  rcases access_cases a s with ⟨-, e⟩ | ⟨-, -, e⟩ | ⟨-, -, -, e⟩ | ⟨-, -, -, e⟩ <;> rw [e] at h <;> cases h
  · rfl
  · exact transfer_params _ _ s

/-- No step changes BASE or BUF_DEPTH (R7). -/
theorem step_params (s t : State) (h : step s = .next t) : t.params = s.params := by
  obtain ⟨u, ⟨ts, rfl⟩, hmove⟩ := step_cases s t h
  rcases hmove with ⟨-, -, -, hosts, rfl⟩ | ⟨-, -, -, r, -, rfl⟩ | ⟨a, v, -, -, -, ha, hosts, rfl⟩ |
    ⟨-, -, -, rfl⟩ | ⟨-, -, -, rfl⟩
  · rfl
  · obtain ⟨hparams, -⟩ := commit_frame r { s with turns := ts }
    exact hparams
  · exact access_params a { s with turns := ts } v ha
  · rfl
  · rfl

/-- No run changes BASE or BUF_DEPTH (R7). -/
theorem reaches_params {s t : State} (h : Reaches s t) : t.params = s.params := by
  induction h with
  | refl => rfl
  | tail _ hstep ih => exact (step_params _ _ hstep).trans ih

/-- Settles O57: ID is a constant, and CAP is a function of the parameters. -/
theorem identificationNeverChanges : Obligations.IdentificationNeverChanges := by
  intro s t h
  have hparams := reaches_params h
  exact ⟨hparams, rfl, by rw [State.wordAt, State.wordAt, hparams]⟩

end Sys2Proof.Machine

/-!
The map of the register window and the accesses to it (20_memory.md): which name stands at which offset, the byte lanes of a
word, and the rules for a bus error, a write while busy, a read of a result while busy and a read-only or reserved offset.
-/

namespace Sys2Proof.Machine

/-! ### The map -/

/-- The name at an aligned offset is well formed and stands for that offset: below the buffers offset by offset, from there on
by the three branches of the map (R61). -/
theorem offsetOf_locate (depth off : Nat) (hoff : off < 4096) (h4 : off % 4 = 0) :
    offsetOf (locate depth off) = off ∧ (locate depth off).wellFormed depth = true := by
  rcases Nat.lt_or_ge off 0x058 with hlow | hhigh
  · obtain ⟨k, rfl⟩ := Nat.dvd_of_mod_eq_zero h4
    have hk : k < 22 := by omega
    interval_cases k <;> exact ⟨rfl, rfl⟩
  · rw [locate_high depth off hhigh]
    split_ifs with hin hout
    · simp [offsetOf, Loc.wellFormed]
      omega
    · simp [offsetOf, Loc.wellFormed]
      omega
    · simp [offsetOf, Loc.wellFormed, hoff, h4]

/-- The offset of a register or a buffer entry is located as that name (R61). -/
theorem locate_offsetOf (depth : Nat) (hdepth : depth ≤ 256) (l : Loc) (hl : l.wellFormed depth = true)
    (hres : ∀ off, l ≠ .reserved off) : locate depth (offsetOf l) = l := by
  cases l with
  | op k => fin_cases k <;> rfl
  | key k => fin_cases k <;> rfl
  | res k => fin_cases k <;> rfl
  | inBuf i => exact locate_inBuf depth i (of_decide_eq_true hl)
  | outBuf i => exact locate_outBuf depth i (of_decide_eq_true hl) hdepth
  | reserved off => exact absurd rfl (hres off)
  | _ => rfl

/-- The offsets of OUT_LEN, RES0..RES5 and OUT[i] are offsets of results (R73). -/
theorem isResult_locate (depth off : Nat) (hdepth : depth ≤ 256)
    (h : off ∈ [0x018, 0x040, 0x044, 0x048, 0x04C, 0x050, 0x054] ∨ (∃ i, i < depth ∧ off = 0x800 + 4 * i)) :
    off < 4096 ∧ off % 4 = 0 ∧ isResult (locate depth off) = true := by
  rcases h with hreg | ⟨i, hi, rfl⟩
  · simp only [List.mem_cons, List.not_mem_nil, or_false] at hreg
    rcases hreg with rfl | rfl | rfl | rfl | rfl | rfl | rfl <;> exact ⟨by omega, by omega, rfl⟩
  · exact ⟨by omega, by omega, by rw [locate_outBuf depth i hi hdepth]; rfl⟩

/-- The reserved rows of R61. -/
theorem locate_reserved (depth off : Nat) (hdepth : depth ≤ 256)
    (h : off = 0x02C ∨ (0x058 ≤ off ∧ off ≤ 0x3FC) ∨ (0x400 + 4 * depth ≤ off ∧ off ≤ 0x7FC) ∨
      (0x800 + 4 * depth ≤ off ∧ off ≤ 0xBFC) ∨ (0xC00 ≤ off ∧ off ≤ 0xFFC)) :
    off < 4096 ∧ locate depth off = .reserved off := by
  rcases h with rfl | hrow
  · exact ⟨by omega, rfl⟩
  · exact ⟨by omega, by rw [locate_high depth off (by omega), if_neg (by omega), if_neg (by omega)]⟩

/-! ### The byte lanes -/

/-- The word read from four byte lanes is their little-endian sum (R65). -/
theorem wordOfBytes_toNat (b0 b1 b2 b3 : Byte) :
    (wordOfBytes b0 b1 b2 b3).toNat =
      b0.toNat + 2 ^ 8 * b1.toNat + 2 ^ 16 * b2.toNat + 2 ^ 24 * b3.toNat := by
  simp only [wordOfBytes, toNat_append_eq_add]
  omega

/-- A word is the little-endian sum of its byte lanes (R65). -/
theorem toNat_eq_sum_lanes (w : Word) :
    w.toNat = (w.extractLsb' 0 8).toNat + 2 ^ 8 * (w.extractLsb' 8 8).toNat +
      2 ^ 16 * (w.extractLsb' 16 8).toNat + 2 ^ 24 * (w.extractLsb' 24 8).toNat := by
  simp only [BitVec.extractLsb'_toNat, Nat.shiftRight_eq_div_pow]
  omega

/-! ### Accesses -/

/-- An access in the window of an open port that is not admitted gets a bus error and changes nothing (R62 to R64). -/
theorem access_not_admitted (a : Access) (s : State) (hp : s.PortOpen) (hwin : s.inWindow a.addr = true)
    (ha : a.admitted = false) : access a s = .next { s with reply := some (.busError a.addr) } := by
  obtain ⟨-, hreleased⟩ := hp
  rcases access_cases a s with ⟨hout, -⟩ | ⟨-, hreset, -⟩ | ⟨-, -, -, e⟩ | ⟨-, -, hadm, -⟩
  · simp [hwin] at hout
  · simp [hreleased] at hreset
  · exact e
  · simp [ha] at hadm

/-- A write while busy is dropped, except to STATUS (R72, R237). -/
theorem access_write_busy (s : State) (off : Nat) (v : Word) (hp : s.PortOpen) (hbusy : s.status.busy = true)
    (hne : off ≠ 0x00C) (hoff : off < 4096) (h4 : off % 4 = 0) :
    access (accessAt s off (some v)) s = .next { s with status := s.status.dropped, reply := some .ack } := by
  rw [accessAt_eq s off (some v) hp hoff h4, transfer_write]
  rcases writeLoc_cases (locate s.params.bufDepth off) v s with ⟨hs, -⟩ | ⟨-, -, e⟩ | ⟨-, hidle, -⟩
  · exact absurd ((locate_eq_status_iff _ off).mp hs) hne
  · rw [e]
  · simp [hbusy] at hidle

/-- A read of a result while busy draws the next free value (R73). -/
theorem access_read_busy_result (s : State) (off : Nat) (hp : s.PortOpen) (hbusy : s.status.busy = true)
    (hres : off < 4096 ∧ off % 4 = 0 ∧ isResult (locate s.params.bufDepth off) = true) :
    access (accessAt s off none) s = .next
      { s with reply := some (.data (Config.freeWord s.draws)), draws := s.draws + 1 } := by
  obtain ⟨hoff, h4, hloc⟩ := hres
  rw [accessAt_eq s off none hp hoff h4, transfer_read]
  rcases readLoc_cases (locate s.params.bufDepth off) s with ⟨hheld, -⟩ | ⟨-, e⟩
  · exact absurd ⟨hbusy, hloc⟩ hheld
  · rw [e]

/-- No host write stores into a result (R67). -/
theorem writeIdle_result (l : Loc) (v : Word) (s : State) (h : isResult l = true) : writeIdle l v s = s := by
  cases l with
  | outLen => rfl
  | res k => rfl
  | outBuf i => rfl
  | _ => exact Bool.noConfusion h

/-- An idle write to a result is ignored with a normal response (R67). -/
theorem access_write_idle_result (s : State) (off : Nat) (v : Word) (hp : s.PortOpen)
    (hidle : s.status.busy = false)
    (hres : off < 4096 ∧ off % 4 = 0 ∧ isResult (locate s.params.bufDepth off) = true) :
    access (accessAt s off (some v)) s = .next { s with reply := some .ack } := by
  obtain ⟨hoff, h4, hloc⟩ := hres
  have hne : off ≠ 0x00C := by
    rintro rfl
    exact Bool.noConfusion hloc
  rw [access_write_idle s off v hp hidle, writeIdle_result _ v s hloc]

/-- A STATUS write clears a bit where the word has a 1 and keeps it elsewhere (R30, R31). -/
theorem status_write_eq (t : Status) (v : Word) :
    t.write v =
      { busy := t.busy
        done := if v.getLsbD 1 then false else t.done
        werr := if v.getLsbD 2 then false else t.werr
        err := t.err } := by
  have clear : ∀ held bit : Bool, (held && !bit) = if bit then false else held := by decide
  rw [Status.write, clear, clear]

/-! ### The obligations -/

/-- Settles O5. -/
theorem byteLanesAreLittleEndian : Obligations.ByteLanesAreLittleEndian := by
  intro w
  refine ⟨_, _, _, _, rfl, toNat_eq_sum_lanes w, BitVec.eq_of_toNat_eq ?_⟩
  rw [wordOfBytes_toNat, ← toNat_eq_sum_lanes]

/-- Settles O34. -/
theorem windowMapIsOneToOne : Obligations.WindowMapIsOneToOne :=
  fun depth hdepth => ⟨offsetOf_locate depth, locate_offsetOf depth hdepth⟩

/-- Settles O35: BASE is a multiple of 4, so the address is aligned only where the offset is. -/
theorem otherWidthsAndAlignmentsGetABusError : Obligations.OtherWidthsAndAlignmentsGetABusError := by
  intro s off size d hp hoff hbad
  obtain ⟨hbase, -⟩ := (params_wellFormed_iff _).mp hp.1
  refine access_not_admitted _ s hp ((inWindow_iff s _).mpr (by dsimp only; omega)) ?_
  rw [Bool.eq_false_iff, ne_eq, admitted_iff]
  dsimp only
  omega

/-- Settles O38. -/
theorem writeWhileBusyIsDropped : Obligations.WriteWhileBusyIsDropped :=
  fun s off v hp hbusy hoff h4 hne => access_write_busy s off v hp hbusy hne hoff h4

/-- Settles O42: ID and CAP ignore the write by name, the other locations because they are results. -/
theorem readOnlyWritesAreIgnored : Obligations.ReadOnlyWritesAreIgnored := by
  intro s off v hp hidle hro
  obtain ⟨-, -, -, hdepth⟩ := (params_wellFormed_iff _).mp hp.1
  rw [List.mem_cons, List.mem_cons] at hro
  rcases hro with (rfl | rfl | hreg) | hbuf
  · exact access_write_idle s 0x000 v hp hidle
  · exact access_write_idle s 0x004 v hp hidle
  · exact access_write_idle_result s off v hp hidle (isResult_locate _ off hdepth (.inl hreg))
  · exact access_write_idle_result s off v hp hidle (isResult_locate _ off hdepth (.inr hbuf))

/-- Settles O43. -/
theorem reservedOffsetsReadZeroAndIgnoreWrites : Obligations.ReservedOffsetsReadZeroAndIgnoreWrites := by
  intro s off v hp h4 hrow
  obtain ⟨-, -, -, hdepth⟩ := (params_wellFormed_iff _).mp hp.1
  obtain ⟨hoff, hloc⟩ := locate_reserved s.params.bufDepth off hdepth hrow
  have hne : off ≠ 0x00C := by omega
  refine ⟨?_, fun hidle => ?_, fun hbusy => access_write_busy s off v hp hbusy hne hoff h4⟩
  · rw [access_read_held s off hp (by simp [hloc, isResult]), hloc, State.wordAt]
  · rw [access_write_idle s off v hp hidle, hloc, writeIdle]

/-- Settles O46. -/
theorem busyResultReadsAreUnspecified : Obligations.BusyResultReadsAreUnspecified := by
  intro s off hp hbusy hres
  obtain ⟨-, -, -, hdepth⟩ := (params_wellFormed_iff _).mp hp.1
  exact access_read_busy_result s off hp hbusy (isResult_locate _ off hdepth hres)

/-- Settles O6. -/
theorem stepMakesTheNextMove : Obligations.StepMakesTheNextMove := by
  refine ⟨fun s t ts hcons => ?_, fun s hnil => ?_⟩
  · rw [step, nextMove_cons s t ts hcons]
  · rw [step, nextMove_nil s hnil, runTurn]

/-- Settles O39. -/
theorem statusWriteIsWriteOneToClear : Obligations.StatusWriteIsWriteOneToClear := by
  intro s v hp
  rw [access_write_status s v hp, acknowledge, status_write_eq]

/-- Settles O47: a read gets a bus error, the word held, or a free value. -/
theorem readsHaveNoSideEffects : Obligations.ReadsHaveNoSideEffects := by
  intro s t a hread hnext
  rcases access_cases a s with ⟨-, e⟩ | ⟨-, -, e⟩ | ⟨-, -, -, e⟩ | ⟨-, -, -, e⟩ <;>
    rw [e] at hnext <;> cases hnext
  · rfl
  · rw [hread, transfer_read]
    rcases readLoc_cases (locate s.params.bufDepth (a.addr - s.params.base)) s with ⟨-, e⟩ | ⟨-, e⟩ <;> rw [e]

end Sys2Proof.Machine

/-!
The command word (30_encoding.md rules R90 to R96): a word is its three fields, the opcode map is one to one on the legal
fields, and so decoding and encoding are inverse to each other.
-/

namespace Sys2Proof.Machine

/-! ### The fields of a word -/

/-- OPC is bits 7:0 as a number (R90). -/
theorem fieldsOf_opc_toNat (w : Word) : (fieldsOf w).opc.toNat = w.toNat % 2 ^ 8 := by
  rw [fieldsOf, BitVec.extractLsb'_toNat, Nat.shiftRight_zero]

/-- S is bit 8 as a number (R90). -/
theorem fieldsOf_s_toNat (w : Word) : (fieldsOf w).s.toNat = w.toNat / 2 ^ 8 % 2 := by
  rw [fieldsOf, BitVec.getLsbD, Nat.toNat_testBit]

/-- RSV is bits 31:9 as a number (R90). -/
theorem fieldsOf_rsv_toNat (w : Word) : (fieldsOf w).rsv.toNat = w.toNat / 2 ^ 9 := by
  rw [fieldsOf, BitVec.extractLsb'_toNat, Nat.shiftRight_eq_div_pow]
  omega

theorem fieldsOf_rsv_eq_zero_iff (w : Word) : (fieldsOf w).rsv = 0 ↔ w.toNat / 2 ^ 9 = 0 := by
  rw [← fieldsOf_rsv_toNat]
  exact BitVec.toNat_inj.symm

theorem fieldsOf_s_eq_true_iff (w : Word) : (fieldsOf w).s = true ↔ w.toNat / 2 ^ 8 % 2 = 1 := by
  rw [← fieldsOf_s_toNat]
  cases (fieldsOf w).s <;> decide

/-- A word holds nothing but its fields. -/
theorem toWord_fieldsOf (w : Word) : (fieldsOf w).toWord = w := by
  apply BitVec.eq_of_toNat_eq
  simp only [CmdFields.toWord, toNat_append_eq_add, BitVec.toNat_ofBool, fieldsOf_opc_toNat, fieldsOf_s_toNat,
    fieldsOf_rsv_toNat]
  omega

/-! ### The opcode map -/

/-- The map gives a command for each defined opcode (R91, R95). -/
theorem commandOf_of_defined (opc : Nat) (s : Bool) (hlow : 1 ≤ opc) (hhigh : opc ≤ 0x0B) :
    ∃ i, commandOf opc s = some i := by
  interval_cases opc <;> exact ⟨_, rfl⟩

/-- The map is one to one on legal fields: they are the fields of the command they select (R92, R95). -/
theorem fields_of_commandOf (opc : BitVec 8) (s : Bool) (i : Instr) (hs : s = true → opc.toNat = 0x08)
    (h : commandOf opc.toNat s = some i) : i.fields = ⟨opc, s, 0⟩ := by
  obtain ⟨n, hn⟩ : ∃ n, opc.toNat = n := ⟨_, rfl⟩
  obtain rfl : opc = BitVec.ofNat 8 n := by rw [← hn, BitVec.ofNat_toNat, BitVec.setWidth_eq]
  rw [hn] at h hs
  unfold commandOf at h
  split at h <;> cases h
  case h_8 => cases s <;> rfl
  all_goals
    have hs' : s = false := by simpa using hs
    rw [hs']
    rfl

/-! ### The decoder -/

theorem decode_of_reservedBits (w : Word) (h : (fieldsOf w).rsv ≠ 0) : decode w = .error .reservedBits :=
  if_pos h

theorem decode_of_undefinedOpcode (w : Word) (hrsv : (fieldsOf w).rsv = 0)
    (h : (fieldsOf w).opc.toNat = 0 ∨ 0x0B < (fieldsOf w).opc.toNat) : decode w = .error .undefinedOpcode := by
  simp only [decode, hrsv, ne_eq, not_true_eq_false, if_false, if_pos h]

theorem decode_of_strayS (w : Word) (hrsv : (fieldsOf w).rsv = 0)
    (hopc : ¬ ((fieldsOf w).opc.toNat = 0 ∨ 0x0B < (fieldsOf w).opc.toNat))
    (h : (fieldsOf w).s = true ∧ (fieldsOf w).opc.toNat ≠ 0x08) : decode w = .error .strayS := by
  simp only [decode, hrsv, ne_eq, not_true_eq_false, if_false, if_neg hopc, if_pos h]

/-- The word of every command decodes to it. -/
theorem decode_encode (i : Instr) : decode (encode i) = .ok i := by
  cases i with
  | hillDec src => cases src <;> rfl
  | _ => rfl

/-- A word that no rule makes illegal is the word of a command. -/
theorem exists_encode_eq (w : Word) (hrsv : (fieldsOf w).rsv = 0)
    (hopc : ¬ ((fieldsOf w).opc.toNat = 0 ∨ 0x0B < (fieldsOf w).opc.toNat))
    (hs : ¬ ((fieldsOf w).s = true ∧ (fieldsOf w).opc.toNat ≠ 0x08)) : ∃ i, encode i = w := by
  obtain ⟨i, hi⟩ := commandOf_of_defined (fieldsOf w).opc.toNat (fieldsOf w).s (by omega) (by omega)
  have hfields : i.fields = fieldsOf w := by
    rw [fields_of_commandOf _ _ i (fun h => by_contra fun h8 => hs ⟨h, h8⟩) hi, ← hrsv]
  exact ⟨i, by rw [encode, hfields, toWord_fieldsOf]⟩

/-- Every word is refused or is the word of a command (R96). -/
theorem decode_cases (w : Word) : (∃ e, decode w = .error e) ∨ ∃ i, encode i = w := by
  by_cases hrsv : (fieldsOf w).rsv = 0
  · by_cases hopc : (fieldsOf w).opc.toNat = 0 ∨ 0x0B < (fieldsOf w).opc.toNat
    · exact .inl ⟨_, decode_of_undefinedOpcode w hrsv hopc⟩
    · by_cases hs : (fieldsOf w).s = true ∧ (fieldsOf w).opc.toNat ≠ 0x08
      · exact .inl ⟨_, decode_of_strayS w hrsv hopc hs⟩
      · exact .inr (exists_encode_eq w hrsv hopc hs)
  · exact .inl ⟨_, decode_of_reservedBits w hrsv⟩

theorem decode_eq_ok_iff (w : Word) (i : Instr) : decode w = .ok i ↔ w = encode i := by
  constructor
  · intro h
    rcases decode_cases w with ⟨e, he⟩ | ⟨j, rfl⟩
    · rw [he] at h
      cases h
    · rw [decode_encode] at h
      cases h
      rfl
  · rintro rfl
    exact decode_encode i

theorem encode_injective : Function.Injective encode := by
  intro i j h
  exact Except.ok.inj ((decode_encode i).symm.trans ((decode_eq_ok_iff _ j).mpr h))

/-! ### The legal words -/

/-- The rows of R95, HILL_DEC in both source forms. -/
def commands : List Instr :=
  [.modinv, .modpow, .txt2num, .num2txt, .hillEnc, .det, .matinv26, .hillDec .codes, .hillDec .text,
    .rsaKeygen, .rsaEnc, .rsaDec]

theorem mem_commands (i : Instr) : i ∈ commands := by
  cases i with
  | hillDec src => cases src <;> decide
  | _ => decide

/-- The legal words are the twelve words of R95's table. -/
theorem legalWords_eq : Set.range encode = ((commands.map encode).toFinset : Set Word) := by
  ext w
  simp [mem_commands]

theorem ncard_legalWords : (Set.range encode).ncard = 12 := by
  have hnodup : (commands.map encode).Nodup := List.Nodup.map encode_injective (by decide)
  rw [legalWords_eq, Set.ncard_coe_finset, List.toFinset_card_of_nodup hnodup]
  rfl

/-- The illegal words are the words of no command. -/
theorem illegalWords_eq : {w : Word | ∀ i : Instr, decode w ≠ .ok i} = (Set.range encode)ᶜ := by
  ext w
  simp [decode_eq_ok_iff, @eq_comm _ w]

theorem card_word : Nat.card Word = 2 ^ 32 := by
  rw [Nat.card_congr BitVec.equivFin.toEquiv, Nat.card_fin]

/-! ### The obligations -/

/-- Settles O3. -/
theorem decodeAcceptsExactlyTheEncodedWords : Obligations.DecodeAcceptsExactlyTheEncodedWords :=
  decode_eq_ok_iff

/-- Settles O2: each clause names, as a number, the field that decides. -/
theorem decodeFollowsTheFieldRules : Obligations.DecodeFollowsTheFieldRules := by
  intro w
  simp only [← fieldsOf_opc_toNat, ← fieldsOf_s_eq_true_iff, ← fieldsOf_rsv_eq_zero_iff, ne_eq]
  refine ⟨decode_of_reservedBits w, decode_of_undefinedOpcode w, fun hrsv hlow hhigh hs hopc => ?_,
    fun hrsv hlow hhigh hs => ?_⟩
  · exact decode_of_strayS w hrsv (by omega) ⟨hs, hopc⟩
  · have hs' : ¬ ((fieldsOf w).s = true ∧ (fieldsOf w).opc.toNat ≠ 0x08) := by
      rw [← fieldsOf_s_toNat] at hs
      rintro ⟨h, h8⟩
      simp [h, h8] at hs
    obtain ⟨i, hi⟩ := exists_encode_eq w hrsv (by omega) hs'
    exact ⟨i, (decode_eq_ok_iff w i).mpr hi.symm, hi⟩

/-- Settles O4: encoding is one to one, so the commands take twelve of the 2^32 words. -/
theorem illegalWordsNumberAllButTwelve : Obligations.IllegalWordsNumberAllButTwelve := by
  rw [Obligations.IllegalWordsNumberAllButTwelve, illegalWords_eq]
  have hfinite : Finite Word := Finite.of_equiv _ BitVec.equivFin.toEquiv.symm
  rw [Set.ncard_compl, card_word, ncard_legalWords]

/-- Settles O1: each word of the table is the encoding of the command in its row. -/
theorem decodeReadsTheOpcodeMap : Obligations.DecodeReadsTheOpcodeMap :=
  ⟨decode_encode .modinv, decode_encode .modpow, decode_encode .txt2num, decode_encode .num2txt,
    decode_encode .hillEnc, decode_encode .det, decode_encode .matinv26, decode_encode (.hillDec .codes),
    decode_encode (.hillDec .text), decode_encode .rsaKeygen, decode_encode .rsaEnc, decode_encode .rsaDec⟩

end Sys2Proof.Machine

/-!
What every command does, whatever its outcome (30_encoding.md rules R99 to R103, R107): it completes, an error writes nothing
but STATUS, its inputs stay, and its outcome and writes are functions of the registers it reads.
-/

namespace Sys2Proof.Machine

/-! ### Completion and frame -/

/-- A command answers the commit of its outcome and nothing else. -/
theorem exec_eq_next_iff (i : Instr) (s t : State) : exec i s = .next t ↔ t = commit (resultOf i s) s := by
  rw [exec_eq_commit, Host.Outcome.next.injEq, eq_comm]

theorem commit_err_eq_ok_iff (r : CmdResult) (s : State) :
    (commit r s).status.err = .ok ↔ ∃ w, r = .ok w := by
  cases r <;> simp [finished, completionOf]

/-- Settles O10. -/
theorem everyCommandCompletes : Obligations.EveryCommandCompletes := by
  intro i s
  refine ⟨_, exec_eq_commit i s, ?_⟩
  rw [commit_status]
  rfl

/-- Settles O11: of the three things a commit can do, only the error leaves an ERR other than OK. -/
theorem failingCommandWritesOnlyStatus : Obligations.FailingCommandWritesOnlyStatus := by
  intro i s t ht herr
  obtain rfl := (exec_eq_next_iff i s t).mp ht
  rcases commit_cases (resultOf i s) s with ⟨e, -, hc⟩ | ⟨ws, -, hc⟩ | ⟨ws, -, hc⟩ <;> rw [hc] at herr ⊢
  · exact absurd rfl herr
  · exact absurd rfl herr

/-- Settles O12. -/
theorem commandsKeepTheirInputs : Obligations.CommandsKeepTheirInputs := by
  intro i s t ht
  obtain rfl := (exec_eq_next_iff i s t).mp ht
  obtain ⟨hparams, hctrl, hcmd, hinLen, hkeyLen, hop0, hop1, hop2, hkey0, hkey1, hkey2, hkey3, hinBuf, hreset,
    hreply, hdraws, hhosts, hturns⟩ := commit_frame (resultOf i s) s
  exact ⟨hctrl, hcmd, hinLen, hkeyLen, hop0, hop1, hop2, hkey0, hkey1, hkey2, hkey3, hinBuf, hparams, hreset,
    hreply, hdraws, hhosts, hturns⟩

/-! ### What the operands are functions of (R94, R107) -/

theorem oddPolicy_bits_injective : Function.Injective OddPolicy.bits := by
  intro p q
  cases p <;> cases q <;> decide

/-- A text entry is a function of bits 7:0. -/
theorem textEntry_eq_ofNat (w : Word) : textEntry w = BitVec.ofNat 8 (w.toNat % 256) := by
  apply BitVec.eq_of_toNat_eq
  rw [textEntry, BitVec.extractLsb'_toNat, Nat.shiftRight_zero, BitVec.toNat_ofNat]
  omega

section Reads
variable {s t : State}

theorem inText_congr (h : textRead s = textRead t) : s.inText = t.inText := by
  have entries : ∀ u : State, u.inText = (textRead u).map (BitVec.ofNat 8) := by
    intro u
    rw [textRead, List.map_map]
    exact List.map_congr_left fun w _ => textEntry_eq_ofNat w
  rw [entries, entries, h]

theorem inCodes_congr (h : codeRead s = codeRead t) : s.inCodes = t.inCodes := by
  have words : input s = input t := List.map_injective_iff.mpr (fun _ _ => BitVec.eq_of_toNat_eq) h
  exact congrArg (List.map s32) words

theorem lengthBad_congr (hdepth : s.params.bufDepth = t.params.bufDepth) (h : s.inLen = t.inLen) :
    s.lengthBad = t.lengthBad := by
  rw [State.lengthBad, State.lengthBad, hdepth, h]

theorem buildKeyMatrix_congr (h : keyRead s = keyRead t) : buildKeyMatrix s = buildKeyMatrix t := by
  simp only [keyRead, List.cons.injEq, BitVec.toNat_inj, and_true] at h
  obtain ⟨hlen, h0, h1, h2, h3⟩ := h
  simp only [buildKeyMatrix, State.keyMatrix, hlen, h0, h1, h2, h3]

theorem hillApply_congr (m : Mat2) (dir : Direction) (c : List Int) (h : policyRead s = policyRead t) :
    hillApply m dir c s = hillApply m dir c t := by
  simp only [policyRead, List.cons.injEq, BitVec.toNat_inj, and_true] at h
  obtain ⟨hodd, hfiller⟩ := h
  simp only [hillApply, State.filler, oddPolicy_bits_injective hodd, hfiller]

/-- The column "reads" of the Hill commands, read apart: its first eight entries have fixed places. -/
theorem hillReads_inj {x y : List Nat}
    (h : s.inLen.toNat :: keyRead s ++ policyRead s ++ x = t.inLen.toNat :: keyRead t ++ policyRead t ++ y) :
    s.inLen = t.inLen ∧ keyRead s = keyRead t ∧ policyRead s = policyRead t ∧ x = y := by
  obtain ⟨hfixed, hinput⟩ := List.append_inj h rfl
  obtain ⟨hkeys, hpolicy⟩ := List.append_inj hfixed rfl
  obtain ⟨hlen, hkeys⟩ := List.cons.inj hkeys
  exact ⟨BitVec.eq_of_toNat_eq hlen, hkeys, hpolicy, hinput⟩

theorem rsaApply_congr (hdepth : s.params.bufDepth = t.params.bufDepth)
    (h : s.inLen.toNat :: s.op0.toNat :: s.op1.toNat :: codeRead s =
      t.inLen.toNat :: t.op0.toNat :: t.op1.toNat :: codeRead t) : rsaApply s = rsaApply t := by
  simp only [List.cons.injEq, BitVec.toNat_inj] at h
  obtain ⟨hlen, hop0, hop1, hcodes⟩ := h
  simp only [rsaApply, lengthBad_congr hdepth hlen, hop0, hop1, inCodes_congr hcodes]

/-- The outcome of a command is a function of the registers R107 says it reads and of BUF_DEPTH. -/
theorem resultOf_congr (i : Instr) (hdepth : s.params.bufDepth = t.params.bufDepth)
    (h : readsOf i s = readsOf i t) : resultOf i s = resultOf i t := by
  cases i with
  | modinv =>
    simp only [readsOf, List.cons.injEq, BitVec.toNat_inj, and_true] at h
    obtain ⟨hop0, hop1⟩ := h
    simp only [resultOf, modinvResult, hop0, hop1]
  | modpow =>
    simp only [readsOf, List.cons.injEq, BitVec.toNat_inj, and_true] at h
    obtain ⟨hop0, hop1, hop2⟩ := h
    simp only [resultOf, modpowResult, hop0, hop1, hop2]
  | rsaKeygen =>
    simp only [readsOf, List.cons.injEq, BitVec.toNat_inj, and_true] at h
    obtain ⟨hop0, hop1, hop2⟩ := h
    simp only [resultOf, rsaKeygenResult, hop0, hop1, hop2]
  | txt2num =>
    obtain ⟨hlen, htext⟩ := List.cons.inj h
    simp only [resultOf, txt2numResult, lengthBad_congr hdepth (BitVec.eq_of_toNat_eq hlen), inText_congr htext]
  | num2txt =>
    obtain ⟨hlen, hcodes⟩ := List.cons.inj h
    simp only [resultOf, num2txtResult, lengthBad_congr hdepth (BitVec.eq_of_toNat_eq hlen), inCodes_congr hcodes]
  | det => simp only [resultOf, detResult, buildKeyMatrix_congr h]
  | matinv26 => simp only [resultOf, matinv26Result, buildKeyMatrix_congr h]
  | hillEnc =>
    obtain ⟨hlen, hkeys, hpolicy, htext⟩ := hillReads_inj h
    simp only [resultOf, hillEncResult, lengthBad_congr hdepth hlen, buildKeyMatrix_congr hkeys,
      inText_congr htext, hillApply_congr _ _ _ hpolicy]
  | hillDec src =>
    have hinput : s.inLen = t.inLen ∧ keyRead s = keyRead t ∧ policyRead s = policyRead t ∧
        cipherCodes src s = cipherCodes src t := by
      cases src with
      | codes =>
        obtain ⟨hlen, hkeys, hpolicy, hcodes⟩ := hillReads_inj h
        exact ⟨hlen, hkeys, hpolicy, inCodes_congr hcodes⟩
      | text =>
        obtain ⟨hlen, hkeys, hpolicy, htext⟩ := hillReads_inj h
        exact ⟨hlen, hkeys, hpolicy, congrArg textToCodes (inText_congr htext)⟩
    obtain ⟨hlen, hkeys, hpolicy, hcodes⟩ := hinput
    simp only [resultOf, hillDecResult, lengthBad_congr hdepth hlen, buildKeyMatrix_congr hkeys, hcodes,
      hillApply_congr _ _ _ hpolicy]
  | rsaEnc => exact rsaApply_congr hdepth h
  | rsaDec => exact rsaApply_congr hdepth h

end Reads

/-! ### What a success writes (R101, R107) -/

/-- The words of W, a buffer's length before its entries: the order of the column "writes" of R107. -/
def Writes.words : Writes → List Word
  | .regs ws   => ws.map Prod.snd
  | .buffer ws => word ws.length :: ws

/-- An output that fits stands in OUT[0..L-1], L = OUT_LEN (R42). -/
theorem outputWords_commit_buffer (ws : List Word) (s : State) (hmem : s.MemWf)
    (hdepth : s.params.bufDepth ≤ 256) (hfits : ws.length ≤ s.params.bufDepth) :
    outputWords (commit (.ok (.buffer ws)) s) = (Writes.buffer ws).words := by
  obtain ⟨-, hout⟩ := (memory_wf_iff _ _).mp hmem
  have hlen : u32 (word ws.length) = ws.length := by
    rw [u32, word, BitVec.ofInt_natCast, BitVec.toNat_ofNat]
    omega
  rw [commit_buffer, State.setOutput, writeOut_of_fits s.mem ws (hout ▸ hfits)]
  simp only [outputWords, complete, Writes.words, hlen, List.take_left']

theorem hillApply_ok (m : Mat2) (dir : Direction) (c : List Int) (s : State) (w : Writes)
    (h : hillApply m dir c s = .ok w) : ∃ ws, w = .buffer ws := by
  unfold hillApply at h
  split at h <;> cases h
  exact ⟨_, rfl⟩

theorem rsaApply_ok (s : State) (w : Writes) (h : rsaApply s = .ok w) : ∃ ws, w = .buffer ws := by
  simp only [rsaApply] at h
  split_ifs at h
  exact ⟨_, (Except.ok.inj h).symm⟩

/-- A command that succeeds leaves the words of its W in the registers and entries R107 lists as written. -/
theorem writesOf_commit (i : Instr) (s u : State) (w : Writes) (h : resultOf i u = .ok w) (hmem : s.MemWf)
    (hdepth : s.params.bufDepth ≤ 256) (hfits : ∀ ws, w = .buffer ws → ws.length ≤ s.params.bufDepth) :
    writesOf i (commit (.ok w) s) = w.words := by
  have buffer : (∃ ws, w = .buffer ws) → outputWords (commit (.ok w) s) = w.words := by
    rintro ⟨ws, rfl⟩
    exact outputWords_commit_buffer ws s hmem hdepth (hfits ws rfl)
  cases i with
  | modinv =>
    simp only [resultOf, modinvResult] at h
    split_ifs at h
    split at h <;> cases h
    rfl
  | modpow =>
    simp only [resultOf, modpowResult] at h
    split_ifs at h
    cases h
    rfl
  | det =>
    simp only [resultOf, detResult] at h
    split at h <;> cases h
    rfl
  | matinv26 =>
    simp only [resultOf, matinv26Result] at h
    split at h
    · cases h
    · split at h <;> cases h
      rfl
  | rsaKeygen =>
    simp only [resultOf, rsaKeygenResult] at h
    split at h <;> cases h
    rfl
  | txt2num =>
    simp only [resultOf, txt2numResult] at h
    split_ifs at h
    exact buffer ⟨_, (Except.ok.inj h).symm⟩
  | num2txt =>
    simp only [resultOf, num2txtResult] at h
    split_ifs at h
    exact buffer ⟨_, (Except.ok.inj h).symm⟩
  | rsaEnc => exact buffer (rsaApply_ok u w h)
  | rsaDec => exact buffer (rsaApply_ok u w h)
  | hillEnc =>
    simp only [resultOf, hillEncResult] at h
    split_ifs at h
    split at h
    · cases h
    · exact buffer (hillApply_ok _ _ _ _ _ h)
  | hillDec src =>
    simp only [resultOf, hillDecResult] at h
    split_ifs at h
    split at h
    · cases h
    · split at h
      · cases h
      · exact buffer (hillApply_ok _ _ _ _ _ h)

/-- Settles O13: both states commit one outcome, and a success leaves the words of that outcome in either. -/
theorem outcomeDependsOnlyOnRegistersRead : Obligations.OutcomeDependsOnlyOnRegistersRead := by
  intro i s t s' t' hdepth hp hmems hmemt hreads hs ht
  obtain rfl := (exec_eq_next_iff i s s').mp hs
  obtain rfl := (exec_eq_next_iff i t t').mp ht
  have hresult : resultOf i t = resultOf i s := (resultOf_congr i hdepth hreads).symm
  rw [hresult]
  refine ⟨by simp [finished], fun hok => ?_⟩
  obtain ⟨w, hw⟩ := (commit_err_eq_ok_iff _ s).mp hok
  obtain ⟨-, -, -, hmax⟩ := (params_wellFormed_iff _).mp hp
  have hfits : ∀ ws, w = .buffer ws → ws.length ≤ s.params.bufDepth := fun ws hws =>
    resultOf_buffer_fits i s ws hp (hws ▸ hw)
  rw [hw, writesOf_commit i s s w hw hmems hmax hfits,
    writesOf_commit i t s w hw hmemt (hdepth ▸ hmax) (hdepth ▸ hfits)]

end Sys2Proof.Machine

/-!
What a line of a host program does (30_encoding.md rule R105), and the engine's turn and the CMD write that it meets on the
bus (R99, R100).
-/

namespace Sys2Proof.Machine

/-! ### Host variables -/

theorem lookup_filter_ne (vars : List (Var × Word)) (x y : Var) (h : y ≠ x) :
    (vars.filter fun b => b.1 != x).lookup y = vars.lookup y := by
  induction vars with
  | nil => rfl
  | cons b vars ih =>
    obtain ⟨z, w⟩ := b
    by_cases hz : z = x
    · simp [hz, List.lookup_cons, ih, beq_false_of_ne h]
    · simp [hz, List.lookup_cons, ih]

theorem get_set_same (h : HostAgent) (x : Var) (w : Word) : (h.set x w).get x = w := by
  simp [HostAgent.get, HostAgent.set]

theorem get_set_other (h : HostAgent) (x y : Var) (w : Word) (hne : y ≠ x) : (h.set x w).get y = h.get y := by
  simp [HostAgent.get, HostAgent.set, List.lookup_cons, beq_false_of_ne hne, lookup_filter_ne _ _ _ hne]

/-! ### Accesses and turns -/

/-- No access changes the hosts: they are outside the engine (R6). -/
theorem access_hosts (a : Access) (s t : State) (h : access a s = .next t) : t.hosts = s.hosts := by
  rcases access_cases a s with ⟨-, e⟩ | ⟨-, -, e⟩ | ⟨-, -, -, e⟩ | ⟨-, -, -, e⟩ <;> rw [e] at h <;> cases h
  · rfl
  · cases a.data with
    | none =>
      rw [transfer_read]
      rcases readLoc_cases (locate s.params.bufDepth (a.addr - s.params.base)) s with ⟨-, e⟩ | ⟨-, e⟩ <;> rw [e]
    | some v =>
      obtain ⟨-, -, -, -, -, -, -, -, -, -, -, -, hhosts, -⟩ :=
        writeLoc_frame (locate s.params.bufDepth (a.addr - s.params.base)) v s
      exact hhosts

/-- What a host does with the state that its access leaves. -/
theorem setHost_of_access {a : Access} {s t : State} (h : access a s = .next t) (k : Nat) (h' : HostAgent) :
    t.setHost k h' = { t with hosts := s.hosts.set k h' } := by
  rw [State.setHost, access_hosts a s t h]

/-- A served access of a host hands the state it leaves to the host. -/
theorem hostAccess_of_next (a : Access) (f : State → State) (s t : State) (h : access a s = .next t) :
    hostAccess a f s = .next (f t) := by
  simp only [hostAccess, h]

theorem replyData_of_reply (s : State) (w : Word) (h : s.reply = some (.data w)) : s.replyData = some w := by
  simp only [State.replyData, h]

/-- The turn on a line that takes the branch to `l`. -/
theorem branchesTo_of_hostTurn {s : State} {k : Nat} {h : HostAgent} {l : Label}
    (hturn : hostTurn k s = branchTo l k h s) : branchesTo l k h s := by
  refine ⟨fun i hi hfirst => ?_, fun hmissing => ?_⟩
  · obtain ⟨hlt, hat⟩ := List.getElem?_eq_some_iff.mp hi
    have hmem : h.prog.contains (.label l) = true := List.contains_iff_mem.mpr (hat ▸ List.getElem_mem hlt)
    have hindex : h.prog.findIdx (· == .label l) = i := by
      refine (List.findIdx_eq hlt).mpr ⟨beq_iff_eq.mpr hat, fun j hj => beq_false_of_ne fun hjl => ?_⟩
      exact hfirst j hj (List.getElem?_eq_some_iff.mpr ⟨hj.trans hlt, hjl⟩)
    rw [hturn, branchTo, if_pos hmem, hindex]
    rfl
  · have hnot : ¬ h.prog.contains (.label l) = true := fun hc => hmissing (List.contains_iff_mem.mp hc)
    rw [hturn, branchTo, if_neg hnot]

section Host
variable {s : State} {k : Nat} {h : HostAgent} (hk : s.hosts[k]? = some h)
include hk

/-- A host on a line executes it. -/
theorem hostTurn_of_line {line : HostLine} (hline : h.prog[h.pc]? = some line) :
    hostTurn k s = hostLine line k h s := by
  simp only [hostTurn, hk, hline]

/-- A host past its last line does nothing (log 14). -/
theorem hostTurn_past_end (hline : h.prog[h.pc]? = none) : hostTurn k s = .next s := by
  simp only [hostTurn, hk, hline]

/-- The turn on a conditional branch: taken when its condition holds, the next line otherwise. -/
theorem branchIf_turn {line : HostLine} {c : Bool} {l : Label} (hline : h.prog[h.pc]? = some line)
    (hdef : hostLine line k h s = branchIf c l k h s) :
    (c = true → branchesTo l k h s) ∧ (c = false → goesOn k h s) := by
  have hturn := (hostTurn_of_line hk hline).trans hdef
  constructor
  · rintro rfl
    exact branchesTo_of_hostTurn hturn
  · rintro rfl
    exact hturn

theorem hostTurn_wr {reg : Loc} {v : HostVal} {t : State} (hline : h.prog[h.pc]? = some (.wr reg v))
    (ha : access (accessAt s (offsetOf reg) (some (h.eval v))) s = .next t) :
    hostTurn k s = .next { t with hosts := s.hosts.set k { h with pc := h.pc + 1 } } := by
  rw [← setHost_of_access ha]
  exact (hostTurn_of_line hk hline).trans (hostAccess_of_next _ _ s t ha)

theorem hostTurn_rd {reg : Loc} {x : Var} {w : Word} {t : State} (hline : h.prog[h.pc]? = some (.rd reg x))
    (ha : access (accessAt s (offsetOf reg) none) s = .next t) (hw : t.reply = some (.data w)) :
    hostTurn k s = .next { t with hosts := s.hosts.set k (h.set x w).advance } := by
  have hreceive : receive x k h t = t.setHost k (h.set x w).advance := by
    simp only [receive, replyData_of_reply t w hw]
  rw [← setHost_of_access ha, ← hreceive]
  exact (hostTurn_of_line hk hline).trans (hostAccess_of_next _ _ s t ha)

/-- A READBUF in progress reads one more entry and stays at its line (log 15). -/
theorem hostTurn_rdElems {n : Nat} {w : Word} {t : State} (hline : h.prog[h.pc]? = some (.rdElems n))
    (hmore : h.reads < u32 (h.get (.len n)))
    (ha : access (accessAt s (0x800 + 4 * h.reads) none) s = .next t) (hw : t.reply = some (.data w)) :
    hostTurn k s = .next
      { t with hosts := s.hosts.set k { h.set (.elem n h.reads) w with reads := h.reads + 1 } } := by
  have hreceive : receiveElem n k h t =
      t.setHost k { h.set (.elem n h.reads) w with reads := h.reads + 1 } := by
    simp only [receiveElem, replyData_of_reply t w hw]
  rw [hostTurn_of_line hk hline, hostLine, readElems, if_pos hmore, ← setHost_of_access ha, ← hreceive]
  exact hostAccess_of_next _ _ s t ha

theorem hostTurn_rdElems_end {n : Nat} (hline : h.prog[h.pc]? = some (.rdElems n))
    (hdone : u32 (h.get (.len n)) ≤ h.reads) :
    hostTurn k s = .next { s with hosts := s.hosts.set k { h with pc := h.pc + 1, reads := 0 } } := by
  rw [hostTurn_of_line hk hline, hostLine, readElems, if_neg (Nat.not_lt.mpr hdone)]
  rfl

end Host

/-- Settles O59, line by line. -/
theorem hostLinesFollowTheirRule : Obligations.HostLinesFollowTheirRule := by
  intro s k h hk
  refine ⟨fun reg v t hline => hostTurn_wr hk hline,
    fun reg x w t hline ha hw =>
      ⟨_, hostTurn_rd hk hline ha hw, rfl, get_set_same h x w, fun y => get_set_other h x y w⟩,
    fun x b l hline => branchIf_turn hk hline rfl, fun x b l hline => ?bclr, fun x imm l hline => ?bne,
    fun l hline => branchesTo_of_hostTurn (hostTurn_of_line hk hline), fun hline => hostTurn_of_line hk hline,
    fun l hline => hostTurn_of_line hk hline, hostTurn_past_end hk,
    fun n w t hline hmore ha hw =>
      ⟨_, hostTurn_rdElems hk hline hmore ha hw, rfl, get_set_same h _ w, fun y => get_set_other h _ y w⟩,
    fun n => hostTurn_rdElems_end hk⟩
  case bclr => simpa using branchIf_turn hk hline rfl
  case bne => simpa using branchIf_turn hk hline rfl

/-! ### Issue and the engine's step -/

theorem engineTurn_of_busy (s : State) {i : Instr} (hbusy : s.status.busy = true) (hr : s.resetAsserted = false)
    (hd : decode s.cmd = .ok i) : engineTurn s = exec i s := by
  have hen : s.engineEnabled = true := by simp [State.engineEnabled, hbusy, hr]
  rw [engineTurn, if_pos hen, engineStep, fetchWord, hd]

/-- Settles O7. -/
theorem stepRunsTheDecodedCommand : Obligations.StepRunsTheDecodedCommand := by
  intro s i hbusy hr hd _
  refine ⟨fun hnil => ?_, fun ts hcons => ?_⟩
  · rw [step, nextMove_nil s hnil]
    exact engineTurn_of_busy s hbusy hr hd
  · rw [step, nextMove_cons s .engine ts hcons]
    exact engineTurn_of_busy { s with turns := ts } hbusy hr hd

/-- Settles O37. -/
theorem cmdWriteIssuesWhenIdle : Obligations.CmdWriteIssuesWhenIdle :=
  fun s v hp => ⟨fun hidle => access_write_idle s 0x010 v hp hidle,
    fun hbusy => access_write_busy s 0x010 v hp hbusy (by omega) (by omega) (by omega)⟩

end Sys2Proof.Machine

/-!
How pseudo-instructions expand (30_encoding.md rule R106): line by line, with the lines of each, and from a well-formed source
to a well-formed host program.
-/

namespace Sys2Proof.Machine

/-! ### The lines of each pseudo-instruction -/

/-- A pseudo-instruction alone expands to its own lines. -/
theorem expand_singleton (fresh : Nat) (p : Pseudo) : expand fresh [p] = (expandOne fresh p).1 :=
  List.append_nil _

theorem length_expandLoadBuf (vs : List HostVal) : (expandLoadBuf vs).length = vs.length + 1 := by
  simp [expandLoadBuf]

theorem getElem?_expandLoadBuf_of_lt (vs : List HostVal) (i : Nat) (hi : i < vs.length) :
    (expandLoadBuf vs)[i]? = some (.wr (.inBuf i) vs[i]) := by
  simp [expandLoadBuf, List.getElem?_append_left, hi]

theorem getElem?_expandLoadBuf_length (vs : List HostVal) :
    (expandLoadBuf vs)[vs.length]? = some (.wr .inLen (.imm (word vs.length))) := by
  simp [expandLoadBuf]

/-- LOADBUF writes buffer entries below the list's length, and IN_LEN. -/
theorem mem_expandLoadBuf {vs : List HostVal} {line : HostLine} (h : line ∈ expandLoadBuf vs) :
    (∃ i v, i < vs.length ∧ line = .wr (.inBuf i) v) ∨ ∃ v, line = .wr .inLen v := by
  simp only [expandLoadBuf, List.mem_append, List.mem_map, List.mem_singleton] at h
  rcases h with ⟨⟨v, i⟩, hb, rfl⟩ | rfl
  · exact .inl ⟨i, v, (List.mem_zipIdx' hb).1, rfl⟩
  · exact .inr ⟨_, rfl⟩

theorem label_not_mem_expandLoadBuf (vs : List HostVal) (l : Label) : .label l ∉ expandLoadBuf vs := by
  intro h
  rcases mem_expandLoadBuf h with ⟨i, v, -, e⟩ | ⟨v, e⟩ <;> cases e

/-! ### Programs -/

/-- Fresh labels are numbered upwards. -/
theorem le_expandOne_snd (fresh : Nat) (p : Pseudo) : fresh ≤ (expandOne fresh p).2 := by
  cases p <;> simp [expandOne]

theorem expand_append (fresh : Nat) (ps qs : List Pseudo) :
    ∃ fresh', fresh ≤ fresh' ∧ expand fresh (ps ++ qs) = expand fresh ps ++ expand fresh' qs := by
  induction ps generalizing fresh with
  | nil => exact ⟨fresh, le_rfl, rfl⟩
  | cons p ps ih =>
    obtain ⟨fresh', hle, happend⟩ := ih (expandOne fresh p).2
    refine ⟨fresh', (le_expandOne_snd fresh p).trans hle, ?_⟩
    simp only [List.cons_append, expand, happend, List.append_assoc]

/-- The lines of every pseudo-instruction of a source stand in its expansion. -/
theorem expandOne_subset_expand {p : Pseudo} {ps : List Pseudo} (h : p ∈ ps) (fresh : Nat) :
    ∃ f, (expandOne f p).1 ⊆ expand fresh ps := by
  obtain ⟨before, after, rfl⟩ := List.append_of_mem h
  obtain ⟨f, -, happend⟩ := expand_append fresh before (p :: after)
  refine ⟨f, ?_⟩
  rw [happend]
  exact List.Subset.trans (List.subset_append_left _ _) (List.subset_append_right _ _)

/-- Every line of an expansion comes from one pseudo-instruction, whose other lines stand there too. -/
theorem exists_expandOne_of_mem_expand {line : HostLine} {ps : List Pseudo} {fresh : Nat}
    (h : line ∈ expand fresh ps) :
    ∃ p ∈ ps, ∃ f, line ∈ (expandOne f p).1 ∧ (expandOne f p).1 ⊆ expand fresh ps := by
  induction ps generalizing fresh with
  | nil => cases h
  | cons p ps ih =>
    rcases List.mem_append.mp h with hhead | htail
    · exact ⟨p, List.mem_cons_self, fresh, hhead, List.subset_append_left _ _⟩
    · obtain ⟨q, hq, f, hline, hsub⟩ := ih htail
      exact ⟨q, List.mem_cons_of_mem p hq, f, hline, List.Subset.trans hsub (List.subset_append_right _ _)⟩

/-! ### Well-formed programs -/

/-- A line whose branch target, if any, is a label of `prog` and whose name, if any, lies in the window (R105). -/
def LineOkIn (depth : Nat) (prog : List HostLine) (line : HostLine) : Prop :=
  (∀ t, line.target = some t → .label t ∈ prog) ∧ ∀ reg, line.loc = some reg → reg.wellFormed depth = true

theorem hostProgramWellFormed_iff (depth : Nat) (prog : List HostLine) :
    hostProgramWellFormed depth prog = true ↔ ∀ line ∈ prog, LineOkIn depth prog line := by
  simp only [hostProgramWellFormed, List.all_eq_true, Bool.and_eq_true, LineOkIn]
  refine forall₂_congr fun line _ => ?_
  cases line.target <;> cases line.loc <;> simp

theorem LineOkIn.mono {depth : Nat} {prog prog' : List HostLine} {line : HostLine}
    (h : LineOkIn depth prog line) (hsub : prog ⊆ prog') : LineOkIn depth prog' line := by
  obtain ⟨htarget, hloc⟩ := h
  exact ⟨fun t ht => hsub (htarget t ht), hloc⟩

theorem expandLoadBuf_okIn (depth : Nat) (prog : List HostLine) (vs : List HostVal) (hfits : vs.length ≤ depth) :
    ∀ line ∈ expandLoadBuf vs, LineOkIn depth prog line := by
  intro line hline
  rcases mem_expandLoadBuf hline with ⟨i, v, hi, rfl⟩ | ⟨v, rfl⟩
  · simp [LineOkIn, HostLine.target, HostLine.loc, Loc.wellFormed, hi.trans_le hfits]
  · simp [LineOkIn, HostLine.target, HostLine.loc, Loc.wellFormed]

/-- The lines that a pseudo-instruction makes are well formed by themselves: WAIT branches to its own label, and LOADBUF
stays in the buffer when its list fits. -/
theorem expandOne_okIn (depth f : Nat) (p : Pseudo) (hplain : ∀ l, p ≠ .line l)
    (hbuf : ∀ vs, p = .loadBuf vs → vs.length ≤ depth)
    (htext : ∀ text, p = .loadText text → text.length ≤ depth) :
    ∀ line ∈ (expandOne f p).1, LineOkIn depth (expandOne f p).1 line := by
  cases p with
  | line l => exact absurd rfl (hplain l)
  | loadBuf vs => exact expandLoadBuf_okIn depth _ vs (hbuf vs rfl)
  | loadText text => exact expandLoadBuf_okIn depth _ _ (by simpa [asciiValues, String.length_toList] using htext text rfl)
  | _ => simp [expandOne, expandWait, LineOkIn, HostLine.target, HostLine.loc, Loc.wellFormed]

/-- A plain line is well formed in the expansion when its name is and its target is a label of the source. -/
theorem plainLine_okIn (depth fresh : Nat) (ps : List Pseudo) (l : HostLine)
    (hloc : ∀ reg, l.loc = some reg → reg.wellFormed depth = true)
    (htarget : ∀ t, l.target = some t → Pseudo.line (.label t) ∈ ps) : LineOkIn depth (expand fresh ps) l := by
  refine ⟨fun t ht => ?_, hloc⟩
  obtain ⟨f, hf⟩ := expandOne_subset_expand (htarget t ht) fresh
  exact hf (List.mem_singleton.mpr rfl)

/-! ### Labels -/

theorem count_fresh_expandWait (f n : Nat) :
    (expandWait f).count (.label (.fresh n)) = if f = n then 1 else 0 := by
  simp [expandWait, List.count_cons]

/-- A fresh label stands in the lines of a pseudo-instruction at most once, and only with a number that it takes. -/
theorem count_fresh_expandOne_le (f n : Nat) (p : Pseudo) (hplain : p ≠ .line (.label (.fresh n))) :
    (expandOne f p).1.count (.label (.fresh n)) ≤ if f ≤ n ∧ n < (expandOne f p).2 then 1 else 0 := by
  cases p with
  | line l =>
    have hl : l ≠ .label (.fresh n) := fun h => hplain (h ▸ rfl)
    simp [expandOne, hl]
  | loadBuf vs => simp [expandOne, List.count_eq_zero_of_not_mem (label_not_mem_expandLoadBuf _ _)]
  | loadText text => simp [expandOne, List.count_eq_zero_of_not_mem (label_not_mem_expandLoadBuf _ _)]
  | wait =>
    rw [expandOne, count_fresh_expandWait]
    split_ifs <;> omega
  | run i =>
    rw [expandOne, List.count_cons_of_ne (by simp), count_fresh_expandWait]
    split_ifs <;> omega
  | _ => simp [expandOne]

/-- No fresh label stands twice in an expansion, and none with a number below the first. -/
theorem count_fresh_expand_le (fresh n : Nat) (ps : List Pseudo)
    (hplain : ∀ p ∈ ps, p ≠ .line (.label (.fresh n))) :
    (expand fresh ps).count (.label (.fresh n)) ≤ if fresh ≤ n then 1 else 0 := by
  induction ps generalizing fresh with
  | nil => simp [expand]
  | cons p ps ih =>
    have hhead := count_fresh_expandOne_le fresh n p (hplain p List.mem_cons_self)
    have htail := ih (expandOne fresh p).2 fun q hq => hplain q (List.mem_cons_of_mem p hq)
    have hle := le_expandOne_snd fresh p
    rw [expand, List.count_append]
    split_ifs at hhead htail ⊢ <;> omega

/-- Only a plain line carries a label of the program's own. -/
theorem count_user_expandOne (f n : Nat) (p : Pseudo) :
    (expandOne f p).1.count (.label (.user n)) = [p].count (.line (.label (.user n))) := by
  cases p with
  | loadBuf vs => simp [expandOne, List.count_eq_zero_of_not_mem (label_not_mem_expandLoadBuf _ _)]
  | loadText text => simp [expandOne, List.count_eq_zero_of_not_mem (label_not_mem_expandLoadBuf _ _)]
  | _ => simp [expandOne, expandWait, List.count_cons]

theorem count_user_expand (fresh n : Nat) (ps : List Pseudo) :
    (expand fresh ps).count (.label (.user n)) = ps.count (.line (.label (.user n))) := by
  induction ps generalizing fresh with
  | nil => rfl
  | cons p ps ih =>
    rw [expand, List.count_append, ih, count_user_expandOne, ← List.count_append, List.singleton_append]

/-! ### The obligation -/

/-- Settles O60: the lines by `expandOne`, and well-formedness from the lines of each pseudo-instruction. -/
theorem pseudoInstructionsExpandToTheirLines : Obligations.PseudoInstructionsExpandToTheirLines := by
  refine ⟨fun fresh => ⟨fun _ => rfl, rfl, fun _ => rfl, fun vs => ?_, fun _ => rfl, fun _ _ _ _ => rfl,
    fun _ => rfl, fun _ => rfl, expand_append fresh⟩, fun depth fresh ps hplain hbuf htext => ⟨?_, fun n => ?_, fun n => ?_⟩⟩
  · rw [expand_singleton]
    exact ⟨length_expandLoadBuf vs, getElem?_expandLoadBuf_of_lt vs, getElem?_expandLoadBuf_length vs⟩
  · refine (hostProgramWellFormed_iff depth _).mpr fun line hline => ?_
    obtain ⟨p, hp, f, hf, hsub⟩ := exists_expandOne_of_mem_expand hline
    by_cases hl : ∃ l, p = .line l
    · obtain ⟨l, rfl⟩ := hl
      obtain rfl : line = l := List.mem_singleton.mp hf
      obtain ⟨hloc, htarget, -⟩ := hplain line hp
      exact plainLine_okIn depth fresh ps line hloc fun t ht => (htarget t ht).2
    · exact (expandOne_okIn depth f p (not_exists.mp hl) (fun vs h => hbuf vs (h ▸ hp))
        (fun text h => htext text (h ▸ hp)) line hf).mono hsub
  · refine (count_fresh_expand_le fresh n ps fun p hp h => ?_).trans (by split <;> omega)
    subst h
    obtain ⟨-, -, hfresh⟩ := hplain _ hp
    exact hfresh n rfl
  · exact count_user_expand fresh n ps

end Sys2Proof.Machine

/-!
Modular arithmetic (40_modular_arithmetic.md): the loops of R121 and R123 compute the functions of R120 and R122 on all
integers, and MODINV and MODPOW commit what these functions give (R124 to R127).
-/

namespace Sys2Proof.Machine

/-! ### The extended Euclidean loop (R121) -/

/-- The remainders are the gcd's: each round keeps it, and `fuel` above the second remainder is enough, since that
remainder falls in every round. -/
theorem euclidLoop_fst (fuel : Nat) (r0 r1 x0 x1 : Int) (h0 : 0 ≤ r0) (h1 : 0 ≤ r1) (hfuel : r1.toNat < fuel) :
    (euclidLoop fuel r0 r1 x0 x1).1 = Int.gcd r0 r1 := by
  induction fuel generalizing r0 r1 x0 x1 with
  | zero => omega
  | succ fuel ih =>
    rw [euclidLoop]
    split_ifs with hr
    · subst hr
      rw [Int.gcd_zero_right, Int.natAbs_of_nonneg h0]
    · have hrem : r0 - r0 / r1 * r1 = r0 % r1 := by rw [Int.emod_def, mul_comm r1]
      have hnonneg : 0 ≤ r0 % r1 := Int.emod_nonneg r0 hr
      have hlt : r0 % r1 < r1 := Int.emod_lt_of_pos r0 (by omega)
      rw [hrem, ih r1 (r0 % r1) _ _ h1 hnonneg (by omega), Int.gcd_comm, Int.gcd_emod]

/-- The coefficients follow the remainders: a·x ≡ r modulo m is kept for both pairs, whatever the fuel. -/
theorem euclidLoop_modEq (a m : Int) (fuel : Nat) (r0 r1 x0 x1 : Int) (h0 : a * x0 ≡ r0 [ZMOD m])
    (h1 : a * x1 ≡ r1 [ZMOD m]) :
    a * (euclidLoop fuel r0 r1 x0 x1).2 ≡ (euclidLoop fuel r0 r1 x0 x1).1 [ZMOD m] := by
  induction fuel generalizing r0 r1 x0 x1 with
  | zero => exact h0
  | succ fuel ih =>
    rw [euclidLoop]
    split_ifs
    · exact h0
    · refine ih _ _ _ _ h1 ?_
      calc a * (x0 - r0 / r1 * x1) = a * x0 - r0 / r1 * (a * x1) := by ring
        _ ≡ r0 - r0 / r1 * r1 [ZMOD m] := h0.sub (h1.mul_left _)

/-! ### The modular inverse (R120) -/

/-- Modulo m ≥ 2 an inverse in [1, m) is the only one: b' ≡ b'·(a·b) = b·(a·b') ≡ b. -/
theorem modInverse_unique {a m b b' : Int} (hb : a * b % m = 1) (hb' : a * b' % m = 1) (h1 : 1 ≤ b) (hlt : b < m)
    (h1' : 1 ≤ b') (hlt' : b' < m) : b' = b := by
  have hone : (1 : Int) % m = 1 := Int.emod_eq_of_lt (by omega) (by omega)
  have hab : a * b ≡ 1 [ZMOD m] := hb.trans hone.symm
  have hab' : a * b' ≡ 1 [ZMOD m] := hb'.trans hone.symm
  have hmod : b' ≡ b [ZMOD m] := by
    calc b' = b' * 1 := (mul_one b').symm
      _ ≡ b' * (a * b) [ZMOD m] := hab.symm.mul_left b'
      _ = b * (a * b') := by ring
      _ ≡ b * 1 [ZMOD m] := hab'.mul_left b
      _ = b := mul_one b
  calc b' = b' % m := (Int.emod_eq_of_lt (by omega) hlt').symm
    _ = b % m := hmod
    _ = b := Int.emod_eq_of_lt (by omega) hlt

theorem modInverseFn_of_not_coprime (a m : Int) (h : Int.gcd (a % m) m ≠ 1) : modInverseFn a m = none :=
  if_pos h

theorem modInverseFn_one_right (a : Int) : modInverseFn a 1 = some 0 := by
  rw [modInverseFn, if_neg (by simp), if_pos rfl]

/-- For a coprime pair the loop ends with remainder 1, so its coefficient is an inverse. -/
theorem euclidLoop_inverse (a m : Int) (hm : 2 ≤ m) (h : Int.gcd (a % m) m = 1) :
    a % m * ((euclidLoop (m.toNat + 1) (a % m) m 1 0).2 % m) % m = 1 := by
  have hgcd : (euclidLoop (m.toNat + 1) (a % m) m 1 0).1 = 1 := by
    rw [euclidLoop_fst _ _ _ _ _ (Int.emod_nonneg a (by omega)) (by omega) (by omega), h, Nat.cast_one]
  have hmod := euclidLoop_modEq (a % m) m (m.toNat + 1) (a % m) m 1 0 (by rw [mul_one]) (by simp [Int.ModEq])
  calc a % m * ((euclidLoop (m.toNat + 1) (a % m) m 1 0).2 % m) % m
      = (euclidLoop (m.toNat + 1) (a % m) m 1 0).1 % m := ((Int.mod_modEq _ m).mul_left _).trans hmod
    _ = 1 := by rw [hgcd, Int.emod_eq_of_lt (by omega) (by omega)]

/-- Reduced modulo m the inverse lies in [1, m), 0 being no inverse. -/
theorem modInverseFn_of_coprime (a m : Int) (hm : 2 ≤ m) (h : Int.gcd (a % m) m = 1) :
    ∃ b, modInverseFn a m = some b ∧ 1 ≤ b ∧ b < m ∧ a % m * b % m = 1 := by
  have hinv := euclidLoop_inverse a m hm h
  refine ⟨(euclidLoop (m.toNat + 1) (a % m) m 1 0).2 % m, ?_, ?_, Int.emod_lt_of_pos _ (by omega), hinv⟩
  · rw [modInverseFn, if_neg (not_not.mpr h), if_neg (by omega)]
  · refine lt_of_le_of_ne (Int.emod_nonneg _ (by omega)) fun hzero => ?_
    rw [← hzero, mul_zero, Int.zero_emod] at hinv
    exact absurd hinv zero_ne_one

/-- Settles O24. -/
theorem modInverseFnMeetsItsRule : Obligations.ModInverseFnMeetsItsRule := by
  intro a m _
  refine ⟨modInverseFn_of_not_coprime a m, ?_, fun hm hgcd => ?_⟩
  · rintro rfl
    exact modInverseFn_one_right a
  · obtain ⟨b, hb, h1, hlt, hinv⟩ := modInverseFn_of_coprime a m hm hgcd
    exact ⟨b, hb, h1, hlt, hinv, fun b' h1' hlt' hinv' => modInverse_unique hinv hinv' h1 hlt h1' hlt'⟩

/-! ### Square-and-multiply (R122, R123) -/

/-- r·b^e modulo m is kept by every round, and the exponent halves, so `fuel` above it is enough. -/
theorem powLoop_eq (fuel m r b e : Nat) (hr : r < m) (hfuel : e < fuel) :
    powLoop fuel m r b e = r * b ^ e % m := by
  induction fuel generalizing r b e with
  | zero => omega
  | succ fuel ih =>
    have hm : 0 < m := by omega
    rw [powLoop]
    split_ifs with he hodd
    · rw [he, pow_zero, mul_one, Nat.mod_eq_of_lt hr]
    · have hexp : e = 2 * (e / 2) + 1 := by omega
      rw [ih _ _ _ (Nat.mod_lt _ hm) (by omega)]
      calc r * b % m * (b * b % m) ^ (e / 2)
          ≡ r * b * (b * b) ^ (e / 2) [MOD m] := (Nat.mod_modEq _ m).mul ((Nat.mod_modEq _ m).pow _)
        _ = r * b ^ (2 * (e / 2) + 1) := by ring
        _ = r * b ^ e := by rw [← hexp]
    · have hexp : e = 2 * (e / 2) := by omega
      rw [ih _ _ _ hr (by omega)]
      calc r * (b * b % m) ^ (e / 2)
          ≡ r * (b * b) ^ (e / 2) [MOD m] := ((Nat.mod_modEq _ m).pow _).mul_left r
        _ = r * b ^ (2 * (e / 2)) := by ring
        _ = r * b ^ e := by rw [← hexp]

/-- On a positive modulus the loop's natural numbers are the integers of R122. -/
theorem modPowFn_eq (b e m : Int) (hm : 1 ≤ m) : modPowFn b e m = (b % m) ^ e.toNat % m := by
  have hmod : (m.toNat : Int) = m := Int.toNat_of_nonneg (by omega)
  have hbase : ((b % m).toNat : Int) = b % m := Int.toNat_of_nonneg (Int.emod_nonneg b (by omega))
  rw [modPowFn, powLoop_eq _ _ _ _ _ (Nat.mod_lt _ (by omega)) (Nat.lt_succ_self _), Nat.mod_mul_mod, one_mul]
  push_cast
  rw [hmod, hbase]

/-- Settles O25. -/
theorem modPowFnMeetsItsRule : Obligations.ModPowFnMeetsItsRule := by
  intro b e m _ hm
  rw [modPowFn_eq b e m hm]
  exact ⟨rfl, Int.emod_nonneg _ (by omega), Int.emod_lt_of_pos _ (by omega)⟩

/-- Multiplying by x and reducing, n times from 1, gives the power (R127). -/
theorem iterate_mul_emod (x m : Int) (n : Nat) : (fun r => r * x % m)^[n] (1 % m) = x ^ n % m := by
  induction n with
  | zero => rw [Function.iterate_zero_apply, pow_zero]
  | succ n ih =>
    rw [Function.iterate_succ_apply', ih, pow_succ]
    exact (Int.mod_modEq _ m).mul_right x

/-! ### What a command leaves, by its outcome -/

theorem failsWith_of_error {i : Instr} {s : State} {e : CmdError} (h : resultOf i s = .error e) : failsWith i s e := by
  rw [failsWith, exec_eq_commit, h, commit_error]

theorem exec_of_res0 {i : Instr} {s : State} {w : Word} (h : resultOf i s = .ok (.regs [(.res0, w)])) :
    exec i s = .next { s with res0 := w, status := finished s .ok } := by
  rw [exec_eq_commit, h]
  rfl

/-! ### The outcome of MODINV (R124) -/

section Modinv
variable {s : State}

theorem modinv_badModulus (h : s32 s.op1 ≤ 0) : resultOf .modinv s = .error .badModulus := if_pos h

theorem modinv_nonInvertible (hm : 1 ≤ s32 s.op1) (h : modInverseFn (s32 s.op0) (s32 s.op1) = none) :
    resultOf .modinv s = .error .nonInvertible := by
  rw [resultOf, modinvResult, if_neg (by omega), h]

theorem modinv_ok {b : Int} (hm : 1 ≤ s32 s.op1) (h : modInverseFn (s32 s.op0) (s32 s.op1) = some b) :
    resultOf .modinv s = .ok (.regs [(.res0, word b)]) := by
  rw [resultOf, modinvResult, if_neg (by omega), h]

end Modinv

/-- Settles O14: the four cases of the operands, each by what `modInverseFn` gives there. -/
theorem modinvFollowsItsRule : Obligations.ModinvFollowsItsRule := by
  rintro s a m rfl rfl
  refine ⟨fun hm => failsWith_of_error (modinv_badModulus hm), fun hm hgcd => ?_, fun hm => ?_, fun hm hgcd => ?_⟩
  · exact failsWith_of_error (modinv_nonInvertible hm (modInverseFn_of_not_coprime _ _ hgcd))
  · exact exec_of_res0 (modinv_ok (b := 0) hm.ge (hm ▸ modInverseFn_one_right _))
  · obtain ⟨b, hb, h1, hlt, hinv⟩ := modInverseFn_of_coprime _ _ hm hgcd
    have hmod : s32 s.op0 * b ≡ s32 s.op0 % s32 s.op1 * b [ZMOD s32 s.op1] := (Int.mod_modEq _ _).symm.mul_right b
    exact ⟨b, h1, hlt, Eq.trans hmod hinv, exec_of_res0 (modinv_ok (by omega) hb)⟩

/-! ### The outcome of MODPOW (R125) -/

section Modpow
variable {s : State}

theorem modpow_badModulus (h : s32 s.op2 ≤ 0) : resultOf .modpow s = .error .badModulus := if_pos h

theorem modpow_negativeExponent (hm : 1 ≤ s32 s.op2) (he : s32 s.op1 < 0) :
    resultOf .modpow s = .error .negativeExponent := by
  rw [resultOf, modpowResult, if_neg (by omega), if_pos he]

theorem modpow_ok (hm : 1 ≤ s32 s.op2) (he : 0 ≤ s32 s.op1) : resultOf .modpow s =
    .ok (.regs [(.res0, word ((s32 s.op0 % s32 s.op2) ^ (s32 s.op1).toNat % s32 s.op2))]) := by
  rw [resultOf, modpowResult, if_neg (by omega), if_neg (by omega), modPowFn_eq _ _ _ hm]

end Modpow

/-- Settles O15. -/
theorem modpowFollowsItsRule : Obligations.ModpowFollowsItsRule := by
  rintro s b e m rfl rfl rfl
  exact ⟨fun hm => failsWith_of_error (modpow_badModulus hm),
    fun hm he => failsWith_of_error (modpow_negativeExponent hm he), fun hm he => exec_of_res0 (modpow_ok hm he)⟩

/-- A value in range is read back from its word (R9). -/
theorem u32_word_of_lt (v : Int) (h0 : 0 ≤ v) (hlt : v < 2 ^ 32) : (u32 (word v) : Int) = v := by
  rw [u32, word, BitVec.toNat_ofInt]
  omega

/-- Settles O26: RES0 holds the power itself, a remainder by a modulus of 32 bits. -/
theorem modpowIsRepeatedMultiplication : Obligations.ModpowIsRepeatedMultiplication := by
  intro s he hm
  have hread : (u32 (word ((s32 s.op0 % s32 s.op2) ^ (s32 s.op1).toNat % s32 s.op2)) : Int) =
      (s32 s.op0 % s32 s.op2) ^ (s32 s.op1).toNat % s32 s.op2 := by
    have hlt := Int.emod_lt_of_pos ((s32 s.op0 % s32 s.op2) ^ (s32 s.op1).toNat) (show 0 < s32 s.op2 by omega)
    have hfits : s32 s.op2 < 2 ^ 31 := BitVec.toInt_lt
    exact u32_word_of_lt _ (Int.emod_nonneg _ (by omega)) (by omega)
  refine ⟨_, exec_of_res0 (modpow_ok hm he), rfl, ?_, ?_⟩
  · rw [hread]
    exact Int.emod_lt_of_pos _ (by omega)
  · rw [hread, iterate_mul_emod]

end Sys2Proof.Machine

/-!
The alphabet codec (41_alphabet_codec.md): the model's filter and map read the table of R140, the transforms are inverse
up to letter case and residue (R144), and TXT2NUM and NUM2TXT commit what they give (R142, R143).
-/

namespace Sys2Proof.Machine

/-! ### Letters and their codes (R140, R141) -/

/-- The two rows of letters in the table of R140. -/
theorem isLetter_iff (c : Byte) :
    isLetter c = true ↔ 0x41 ≤ c.toNat ∧ c.toNat ≤ 0x5A ∨ 0x61 ≤ c.toNat ∧ c.toNat ≤ 0x7A := by
  simp only [isLetter, Bool.or_eq_true, Bool.and_eq_true, decide_eq_true_eq]

theorem textToCodes_cons_of_letter {c : Byte} (cs : List Byte) (h : isLetter c = true) :
    textToCodes (c :: cs) = letterCode c :: textToCodes cs := by
  rw [textToCodes, List.filter_cons_of_pos h, List.map_cons, textToCodes]

theorem textToCodes_cons_of_not_letter {c : Byte} (cs : List Byte) (h : ¬ isLetter c = true) :
    textToCodes (c :: cs) = textToCodes cs := by
  rw [textToCodes, List.filter_cons_of_neg h, textToCodes]

/-- A text entry is bits 7:0 as a number (R94). -/
theorem textEntry_toNat (w : Word) : (textEntry w).toNat = w.toNat % 256 := by
  rw [textEntry_eq_ofNat, BitVec.toNat_ofNat]
  exact Nat.mod_mod _ _

theorem tableCode_of_letter {w : Word} (h : isLetter (textEntry w) = true) :
    tableCode w = some (letterCode (textEntry w)) := by
  rw [isLetter_iff, textEntry_toNat] at h
  simp only [tableCode, letterCode, textEntry_toNat]
  rcases h with hupper | hlower
  · rw [if_pos hupper, if_pos hupper.2]
  · rw [if_neg (by omega), if_pos hlower, if_neg (by omega)]

theorem tableCode_of_not_letter {w : Word} (h : ¬ isLetter (textEntry w) = true) : tableCode w = none := by
  rw [isLetter_iff, textEntry_toNat, not_or] at h
  obtain ⟨hupper, hlower⟩ := h
  simp only [tableCode, if_neg hupper, if_neg hlower]

/-- Filtering the letters and coding them is one pass over the table of R140. -/
theorem textToCodes_map_textEntry (ws : List Word) : textToCodes (ws.map textEntry) = lettersOf ws := by
  induction ws with
  | nil => rfl
  | cons w ws ih =>
    rw [List.map_cons, lettersOf]
    by_cases h : isLetter (textEntry w) = true
    · rw [textToCodes_cons_of_letter _ h, List.filterMap_cons_some (tableCode_of_letter h), ih, lettersOf]
    · rw [textToCodes_cons_of_not_letter _ h, List.filterMap_cons_none (tableCode_of_not_letter h), ih, lettersOf]

theorem textToCodes_inText (s : State) : textToCodes s.inText = lettersOf (input s) :=
  textToCodes_map_textEntry (input s)

/-! ### The round trips (R144) -/

/-- A letter's code names the letter in upper case. -/
theorem codeToLetter_letterCode {c : Byte} (h : isLetter c = true) :
    codeToLetter (letterCode c) = if 0x61 ≤ c.toNat then (c.toNat : Int) - 0x20 else (c.toNat : Int) := by
  rw [codeToLetter, letterCode]
  rcases (isLetter_iff c).mp h with hupper | hlower
  · rw [if_pos hupper.2, if_neg (by omega)]
    omega
  · rw [if_neg (by omega), if_pos hlower.1]
    omega

/-- The letter of a code is an upper-case byte, so its text entry loses nothing. -/
theorem textEntry_codeToLetter_toNat (v : Int) : ((textEntry (word (codeToLetter v))).toNat : Int) = 0x41 + v % 26 := by
  have hword : ((word (codeToLetter v)).toNat : Int) = codeToLetter v :=
    u32_word_of_lt _ (by rw [codeToLetter]; omega) (by rw [codeToLetter]; omega)
  rw [codeToLetter] at hword
  rw [textEntry_toNat, codeToLetter]
  omega

theorem isLetter_textEntry_codeToLetter (v : Int) : isLetter (textEntry (word (codeToLetter v))) = true := by
  have hbyte := textEntry_codeToLetter_toNat v
  exact (isLetter_iff _).mpr (.inl (by omega))

/-- The code of a code's letter is the code's residue. -/
theorem letterCode_textEntry_codeToLetter (v : Int) : letterCode (textEntry (word (codeToLetter v))) = v % 26 := by
  have hbyte := textEntry_codeToLetter_toNat v
  rw [letterCode, if_pos (by omega)]
  omega

/-- Settles O32: (a) holds letter by letter of the filtered text; in (b) every entry is a letter and none is dropped. -/
theorem codecRoundTripsHold : Obligations.CodecRoundTripsHold := by
  refine ⟨fun cs => ?_, fun vs => ?_⟩
  · rw [textToCodes, List.map_map]
    exact List.map_congr_left fun c hc => codeToLetter_letterCode (List.mem_filter.mp hc).2
  · induction vs with
    | nil => rfl
    | cons v vs ih =>
      rw [List.map_cons, textToCodes_cons_of_letter _ (isLetter_textEntry_codeToLetter v),
        letterCode_textEntry_codeToLetter, ih, List.map_cons]

/-! ### What a buffer command reads and leaves -/

theorem lengthBad_iff (s : State) : s.lengthBad = true ↔ s.params.bufDepth < u32 s.inLen := by
  rw [State.lengthBad, decide_eq_true_eq]

theorem not_lengthBad_of_le {s : State} (h : u32 s.inLen ≤ s.params.bufDepth) : ¬ s.lengthBad = true := by
  rw [lengthBad_iff]
  omega

/-- The input is a part of IN_BUF, which is as long as OUT_BUF. -/
theorem length_input_le_outBuf {s : State} (h : s.MemWf) : (input s).length ≤ s.mem.outBuf.length := by
  obtain ⟨hin, hout⟩ := (memory_wf_iff _ _).mp h
  rw [hout, ← hin]
  exact List.length_take_le' _ _

/-- An output no longer than the input fits, and the command leaves the state of `bufferDone`. -/
theorem exec_of_buffer {i : Instr} {s : State} {o : List Int} (h : resultOf i s = .ok (.buffer (o.map word)))
    (hmem : s.MemWf) (hlen : o.length ≤ (input s).length) : exec i s = .next (bufferDone s o) := by
  rw [exec_eq_commit, h, commit_buffer_of_fits o s (hlen.trans (length_input_le_outBuf hmem))]

/-! ### TXT2NUM and NUM2TXT (R142, R143) -/

section Codec
variable {s : State}

theorem txt2num_length (h : s.params.bufDepth < u32 s.inLen) : resultOf .txt2num s = .error .length :=
  if_pos ((lengthBad_iff s).mpr h)

theorem txt2num_ok (h : u32 s.inLen ≤ s.params.bufDepth) :
    resultOf .txt2num s = .ok (.buffer ((lettersOf (input s)).map word)) := by
  rw [resultOf, txt2numResult, if_neg (not_lengthBad_of_le h), textToCodes_inText]

theorem num2txt_length (h : s.params.bufDepth < u32 s.inLen) : resultOf .num2txt s = .error .length :=
  if_pos ((lengthBad_iff s).mpr h)

theorem num2txt_ok (h : u32 s.inLen ≤ s.params.bufDepth) :
    resultOf .num2txt s = .ok (.buffer (((input s).map fun w => 0x41 + s32 w % 26).map word)) := by
  rw [resultOf, num2txtResult, if_neg (not_lengthBad_of_le h), State.inCodes, List.map_map, List.map_map]
  rfl

end Codec

/-- Settles O16: the output fits, for the table gives each entry at most one code. -/
theorem txt2numFollowsItsRule : Obligations.Txt2numFollowsItsRule := by
  intro s
  refine ⟨fun hlong => failsWith_of_error (txt2num_length hlong), fun hmem hlen => ?_⟩
  exact exec_of_buffer (txt2num_ok hlen) hmem (List.length_filterMap_le _ _)

/-- Settles O17: the output has one letter for each entry of the input. -/
theorem num2txtFollowsItsRule : Obligations.Num2txtFollowsItsRule := by
  intro s
  refine ⟨fun hlong => failsWith_of_error (num2txt_length hlong), fun hmem hlen => ?_⟩
  exact exec_of_buffer (num2txt_ok hlen) hmem (List.length_map _).le

end Sys2Proof.Machine

/-!
The functions of the Hill cipher (42_hill_cipher.md): the odd-length policies (R151), the matrix on pairs (R152), the
determinant (R153) and the inverse matrix modulo 26 (R154, R161).
-/

namespace Sys2Proof.Machine

/-! ### The odd-length policies (R151, R159) -/

/-- The policies that append the filler to an odd sequence, by direction. -/
abbrev OddPolicy.Pads (p : OddPolicy) (dir : Direction) : Prop := p = .pad ∨ (p = .reference ∧ dir = .enc)

/-- The policies that drop the last element of an odd sequence, by direction. -/
abbrev OddPolicy.Drops (p : OddPolicy) (dir : Direction) : Prop := p = .truncate ∨ (p = .reference ∧ dir = .dec)

theorem oddPolicy_cases (p : OddPolicy) (dir : Direction) : p.Pads dir ∨ p.Drops dir ∨ p = .reject := by
  cases p <;> cases dir <;> decide

theorem not_pads_and_drops (p : OddPolicy) (dir : Direction) : ¬ (p.Pads dir ∧ p.Drops dir) := by
  cases p <;> cases dir <;> decide

section OddAdjust
variable {p : OddPolicy} {f : Int} {dir : Direction} {c c' : List Int}

theorem oddAdjust_of_even (h : c.length % 2 = 0) : oddAdjust p f dir c = .ok c := if_pos h

theorem oddAdjust_of_pads (hp : p.Pads dir) (h : c.length % 2 = 1) : oddAdjust p f dir c = .ok (c ++ [f]) := by
  rcases hp with rfl | ⟨rfl, rfl⟩ <;> exact if_neg (by omega)

theorem oddAdjust_of_drops (hp : p.Drops dir) (h : c.length % 2 = 1) : oddAdjust p f dir c = .ok c.dropLast := by
  rw [List.dropLast_eq_take]
  rcases hp with rfl | ⟨rfl, rfl⟩ <;> exact if_neg (by omega)

theorem oddAdjust_of_reject (hp : p = .reject) (h : c.length % 2 = 1) : oddAdjust p f dir c = .error .oddLength := by
  subst hp
  exact if_neg (by omega)

/-- `c'` is an odd sequence without its last element. -/
theorem eq_dropLast_iff (h : c.length % 2 = 1) : (∃ x, c = c' ++ [x]) ↔ c' = c.dropLast := by
  have hne : c ≠ [] := by
    rintro rfl
    exact absurd h (by decide)
  constructor
  · rintro ⟨x, rfl⟩
    exact List.dropLast_concat.symm
  · rintro rfl
    exact ⟨c.getLast hne, (List.dropLast_append_getLast hne).symm⟩

theorem adjusted_iff_of_even (h : c.length % 2 = 0) : adjusted p f dir c c' ↔ c' = c := by
  simp [adjusted, h]

theorem adjusted_iff_of_odd (h : c.length % 2 = 1) :
    adjusted p f dir c c' ↔ (p.Pads dir ∧ c' = c ++ [f]) ∨ (p.Drops dir ∧ c' = c.dropLast) := by
  simp only [adjusted, h, one_ne_zero, false_and, true_and, false_or, eq_dropLast_iff h]

/-- The computed adjustment is the relation of R151. -/
theorem oddAdjust_eq_ok_iff : oddAdjust p f dir c = .ok c' ↔ adjusted p f dir c c' := by
  rcases Nat.mod_two_eq_zero_or_one c.length with h | h
  · rw [oddAdjust_of_even h, adjusted_iff_of_even h, Except.ok.injEq, eq_comm]
  · rw [adjusted_iff_of_odd h]
    have hexcl := not_pads_and_drops p dir
    rcases oddPolicy_cases p dir with hp | hp | hp
    · rw [oddAdjust_of_pads hp h, Except.ok.injEq, eq_comm]
      tauto
    · rw [oddAdjust_of_drops hp h, Except.ok.injEq, eq_comm]
      tauto
    · rw [oddAdjust_of_reject hp h]
      simp [hp]

theorem oddAdjust_eq_oddLength_iff : oddAdjust p f dir c = .error .oddLength ↔ c.length % 2 = 1 ∧ p = .reject := by
  refine ⟨fun herr => ?_, fun ⟨h, hp⟩ => oddAdjust_of_reject hp h⟩
  rcases Nat.mod_two_eq_zero_or_one c.length with h | h
  · rw [oddAdjust_of_even h] at herr
    cases herr
  · rcases oddPolicy_cases p dir with hp | hp | hp
    · rw [oddAdjust_of_pads hp h] at herr
      cases herr
    · rw [oddAdjust_of_drops hp h] at herr
      cases herr
    · exact ⟨h, hp⟩

/-- Only odd length under REJECT has no adjusted sequence. -/
theorem exists_adjusted (h : c.length % 2 = 0 ∨ p ≠ .reject) : ∃ c', adjusted p f dir c c' := by
  rcases Nat.mod_two_eq_zero_or_one c.length with heven | hodd
  · exact ⟨c, (adjusted_iff_of_even heven).mpr rfl⟩
  · simp only [adjusted_iff_of_odd hodd]
    rcases oddPolicy_cases p dir with hp | hp | hp
    · exact ⟨_, .inl ⟨hp, rfl⟩⟩
    · exact ⟨_, .inr ⟨hp, rfl⟩⟩
    · exact absurd hp (h.resolve_left (by omega))

theorem adjusted_length_even (h : adjusted p f dir c c') : c'.length % 2 = 0 := by
  rcases h with ⟨heven, rfl⟩ | ⟨hodd, -, rfl⟩ | ⟨hodd, -, x, rfl⟩
  · exact heven
  · rw [List.length_append, List.length_singleton]
    omega
  · rw [List.length_append, List.length_singleton] at hodd
    omega

/-- Every element of the adjusted sequence is an element of the sequence or the filler. -/
theorem mem_of_adjusted (h : adjusted p f dir c c') {v : Int} (hv : v ∈ c') : v ∈ c ∨ v = f := by
  rcases h with ⟨-, rfl⟩ | ⟨-, -, rfl⟩ | ⟨-, -, x, rfl⟩
  · exact .inl hv
  · exact List.mem_append.mp hv |>.imp_right List.mem_singleton.mp
  · exact .inl (List.mem_append_left _ hv)

theorem exists_oddAdjust_length_of_pads (m : Mat2) (hp : p.Pads dir) :
    ∃ c', oddAdjust p f dir c = .ok c' ∧ (applyPairs m c').length = 2 * ((c.length + 1) / 2) := by
  rcases Nat.mod_two_eq_zero_or_one c.length with h | h
  · exact ⟨_, oddAdjust_of_even h, by rw [applyPairs_length]; omega⟩
  · exact ⟨_, oddAdjust_of_pads hp h, by rw [applyPairs_length, List.length_append, List.length_singleton]⟩

theorem exists_oddAdjust_length_of_drops (m : Mat2) (hp : p.Drops dir) :
    ∃ c', oddAdjust p f dir c = .ok c' ∧ (applyPairs m c').length = 2 * (c.length / 2) := by
  rcases Nat.mod_two_eq_zero_or_one c.length with h | h
  · exact ⟨_, oddAdjust_of_even h, applyPairs_length m c⟩
  · exact ⟨_, oddAdjust_of_drops hp h, by rw [applyPairs_length, List.length_dropLast]; omega⟩

end OddAdjust

/-- Settles O27. -/
theorem oddAdjustFollowsThePolicy : Obligations.OddAdjustFollowsThePolicy :=
  fun _ _ _ _ => ⟨fun _ => oddAdjust_eq_ok_iff, oddAdjust_eq_oddLength_iff⟩

/-- Settles O30: an odd length goes up by the filler or down by the dropped element. -/
theorem hillOutputLengthFollowsThePolicy : Obligations.HillOutputLengthFollowsThePolicy := by
  intro p f m c
  refine ⟨fun hp => exists_oddAdjust_length_of_pads m ?_, fun hp => exists_oddAdjust_length_of_drops m (.inl hp),
    fun hp => exists_oddAdjust_length_of_drops m ?_, fun hp => exists_oddAdjust_length_of_pads m (.inl hp),
    fun hp dir => ⟨fun heven => ⟨c, oddAdjust_of_even heven, ?_⟩, oddAdjust_of_reject hp⟩⟩
  · exact hp.symm.imp_right fun href => ⟨href, rfl⟩
  · exact hp.symm.imp_right fun href => ⟨href, rfl⟩
  · rw [applyPairs_length]
    omega

/-! ### The matrix on pairs (R152) -/

/-- The entries by pairs are those by index: entry 2j of the tail is entry 2(j+1) of the whole. -/
theorem pairProduct_applyPairs (m : Mat2) : ∀ c : List Int, c.length % 2 = 0 → pairProduct m c (applyPairs m c)
  | [], _ => ⟨rfl, fun j hj => absurd hj (Nat.not_lt_zero _)⟩
  | [_], h => absurd h (by simp)
  | x :: y :: rest, h => by
    have heven : rest.length % 2 = 0 := by
      rw [List.length_cons, List.length_cons] at h
      omega
    obtain ⟨hlen, hentry⟩ := pairProduct_applyPairs m rest heven
    refine ⟨by simp only [applyPairs, List.length_cons, hlen], fun j hj => ?_⟩
    cases j with
    | zero => exact ⟨rfl, rfl⟩
    | succ j =>
      rw [List.length_cons, List.length_cons] at hj
      exact hentry j (by omega)

/-- Every element is a residue modulo 26. -/
theorem applyPairs_range (m : Mat2) : ∀ (c : List Int), ∀ v ∈ applyPairs m c, 0 ≤ v ∧ v < 26
  | [], v, hv => absurd hv List.not_mem_nil
  | [_], v, hv => absurd hv List.not_mem_nil
  | x :: y :: rest, v, hv => by
    rw [applyPairs, List.mem_cons, List.mem_cons] at hv
    rcases hv with rfl | rfl | hv
    · omega
    · omega
    · exact applyPairs_range m rest v hv

/-! ### Products modulo 26 -/

/-- The matrix product `a · b` is the identity modulo 26, entry by entry. -/
def mulIsOne26 (a b : Mat2) : Prop :=
  (a.m00 * b.m00 + a.m01 * b.m10) % 26 = 1 ∧ (a.m00 * b.m01 + a.m01 * b.m11) % 26 = 0 ∧
  (a.m10 * b.m00 + a.m11 * b.m10) % 26 = 0 ∧ (a.m10 * b.m01 + a.m11 * b.m11) % 26 = 1

/-- Residues on the right of a row times a column may be left unreduced. -/
theorem mul_emod_add_mul_emod (x y a b : Int) : (x * (a % 26) + y * (b % 26)) % 26 = (x * a + y * b) % 26 :=
  ((Int.mod_modEq a 26).mul_left x).add ((Int.mod_modEq b 26).mul_left y)

/-- Residues on the left of a row times a column may be left unreduced. -/
theorem emod_mul_add_emod_mul (a b x y : Int) : (a % 26 * x + b % 26 * y) % 26 = (a * x + b * y) % 26 :=
  ((Int.mod_modEq a 26).mul_right x).add ((Int.mod_modEq b 26).mul_right y)

/-- One row of a product of matrices, applied to a pair. -/
theorem row_comp_emod (a b k00 k01 k10 k11 x y : Int) :
    (a * ((k00 * x + k01 * y) % 26) + b * ((k10 * x + k11 * y) % 26)) % 26 =
      ((a * k00 + b * k10) % 26 * x + (a * k01 + b * k11) % 26 * y) % 26 := by
  rw [mul_emod_add_mul_emod, emod_mul_add_emod_mul]
  ring_nf

/-- A left inverse modulo 26 undoes the matrix, pair by pair. -/
theorem applyPairs_leftInverse {a k : Mat2} (h : mulIsOne26 a k) :
    ∀ c : List Int, c.length % 2 = 0 → applyPairs a (applyPairs k c) = c.map (· % 26)
  | [], _ => rfl
  | [_], hc => absurd hc (by simp)
  | x :: y :: rest, hc => by
    have heven : rest.length % 2 = 0 := by
      rw [List.length_cons, List.length_cons] at hc
      omega
    have hrest := applyPairs_leftInverse h rest heven
    obtain ⟨h00, h01, h10, h11⟩ := h
    simp only [applyPairs, row_comp_emod, h00, h01, h10, h11, hrest, one_mul, zero_mul, add_zero, zero_add,
      List.map_cons]

/-! ### The determinant (R153) -/

theorem determinant_keyMatrix (s : State) : determinant s.keyMatrix = keyDet s := rfl

/-- The product of two 32-bit signed values: only the square of -2^31 reaches 2^62. -/
theorem s32_mul_bounds (x y : Word) : -(2 ^ 62) + 2 ^ 31 ≤ s32 x * s32 y ∧ s32 x * s32 y ≤ 2 ^ 62 := by
  have hx : -2 ^ 31 ≤ s32 x := BitVec.le_toInt x
  have hx' : s32 x < 2 ^ 31 := BitVec.toInt_lt
  have hy : -2 ^ 31 ≤ s32 y := BitVec.le_toInt y
  have hy' : s32 y < 2 ^ 31 := BitVec.toInt_lt
  rcases le_total 0 (s32 x) with h | h <;> constructor <;> nlinarith

/-- Settles O28: each of the two products has its bounds. -/
theorem determinantStaysInBounds : Obligations.DeterminantStaysInBounds := by
  intro s
  obtain ⟨hlo, hhi⟩ := s32_mul_bounds s.key0 s.key3
  obtain ⟨hlo', hhi'⟩ := s32_mul_bounds s.key1 s.key2
  refine ⟨determinant_keyMatrix s, ?_⟩
  rw [keyDet]
  omega

/-! ### The inverse matrix (R154, R161) -/

/-- The adjugate of `k` scaled by `di` and reduced modulo 26 (R154). -/
def scaledAdjugate (k : Mat2) (di : Int) : Mat2 :=
  { m00 := k.m11 * di % 26, m01 := -k.m01 * di % 26, m10 := -k.m10 * di % 26, m11 := k.m00 * di % 26 }

theorem scaledAdjugate_keyMatrix (s : State) (di : Int) : scaledAdjugate s.keyMatrix di = keyInverse s di := rfl

theorem invertMatrix26_of_not_coprime {k : Mat2} (h : Int.gcd (determinant k % 26) 26 ≠ 1) :
    invertMatrix26 k = .error .nonInvertibleKey := if_pos h

theorem invertMatrix26_of_coprime {k : Mat2} (h : Int.gcd (determinant k % 26) 26 = 1) :
    ∃ di, 0 ≤ di ∧ di < 26 ∧ determinant k % 26 * di % 26 = 1 ∧
      invertMatrix26 k = .ok ⟨scaledAdjugate k di, determinant k % 26, di⟩ := by
  obtain ⟨di, hdi, h1, hlt, hinv⟩ :=
    modInverseFn_of_coprime (determinant k % 26) 26 (by decide) (by rwa [Int.emod_emod])
  rw [Int.emod_emod] at hinv
  refine ⟨di, by omega, hlt, hinv, ?_⟩
  rw [invertMatrix26, if_neg (not_not.mpr h), hdi]
  rfl

/-- A success is the scaled adjugate of a matrix whose determinant has the inverse `di`. -/
theorem invertMatrix26_ok {k : Mat2} {r : Inverse26} (h : invertMatrix26 k = .ok r) :
    ∃ di, determinant k % 26 * di % 26 = 1 ∧ r.inv = scaledAdjugate k di := by
  by_cases hgcd : Int.gcd (determinant k % 26) 26 = 1
  · obtain ⟨di, -, -, hinv, hok⟩ := invertMatrix26_of_coprime hgcd
    obtain rfl := Except.ok.inj (hok.symm.trans h)
    exact ⟨di, hinv, rfl⟩
  · rw [invertMatrix26_of_not_coprime hgcd] at h
    cases h

section ScaledAdjugate
variable {k : Mat2} {di : Int}

/-- K · adj(K) · di = det(K) · di · I. -/
theorem mul_scaledAdjugate (h : determinant k % 26 * di % 26 = 1) : mulIsOne26 k (scaledAdjugate k di) := by
  have hone : determinant k * di % 26 = 1 := Eq.trans ((Int.mod_modEq _ 26).symm.mul_right di) h
  simp only [mulIsOne26, scaledAdjugate, mul_emod_add_mul_emod]
  refine ⟨?_, ?_, ?_, ?_⟩
  · rw [← hone, determinant]; ring_nf
  · ring_nf; rfl
  · ring_nf; rfl
  · rw [← hone, determinant]; ring_nf

/-- adj(K) · di · K = det(K) · di · I. -/
theorem scaledAdjugate_mul (h : determinant k % 26 * di % 26 = 1) : mulIsOne26 (scaledAdjugate k di) k := by
  have hone : determinant k * di % 26 = 1 := Eq.trans ((Int.mod_modEq _ 26).symm.mul_right di) h
  simp only [mulIsOne26, scaledAdjugate, emod_mul_add_emod_mul]
  refine ⟨?_, ?_, ?_, ?_⟩
  · rw [← hone, determinant]; ring_nf
  · ring_nf; rfl
  · ring_nf; rfl
  · rw [← hone, determinant]; ring_nf

end ScaledAdjugate

/-- Settles O29: the inverse is the scaled adjugate, and a left inverse undoes the matrix on pairs. -/
theorem inverseMatrixUndoesTheKey : Obligations.InverseMatrixUndoesTheKey := by
  intro k r hr
  obtain ⟨di, hdi, hinv⟩ := invertMatrix26_ok hr
  rw [hinv]
  exact ⟨mul_scaledAdjugate hdi, scaledAdjugate_mul hdi, applyPairs_leftInverse (scaledAdjugate_mul hdi)⟩

end Sys2Proof.Machine

/-!
The commands of the Hill cipher: HILL_ENC (R155), DET (R156), MATINV26 (R157) and HILL_DEC (R158) commit what the
functions of 42_hill_cipher.md give, and decryption undoes encryption up to the odd-length policy (R160).
-/

namespace Sys2Proof.Machine

section Commands
variable {s : State}

/-! ### The operands -/

theorem buildKeyMatrix_of_ne (h : u32 s.keyLen ≠ 4) : buildKeyMatrix s = .error .invalidKeyShape := if_pos h

theorem buildKeyMatrix_of_eq (h : u32 s.keyLen = 4) : buildKeyMatrix s = .ok s.keyMatrix := if_neg (not_not.mpr h)

/-- A coprime determinant has an inverse in range, and the inverse matrix is that of R154. -/
theorem invertMatrix26_keyMatrix (h : Int.gcd (keyDet s % 26) 26 = 1) :
    ∃ di, isDetInverse s di ∧ invertMatrix26 s.keyMatrix = .ok ⟨keyInverse s di, keyDet s % 26, di⟩ := by
  obtain ⟨di, hnonneg, hlt, hinv, hok⟩ := invertMatrix26_of_coprime (k := s.keyMatrix) h
  exact ⟨di, ⟨hnonneg, hlt, hinv⟩, hok⟩

theorem keyInverse_mul {di : Int} (h : isDetInverse s di) : mulIsOne26 (keyInverse s di) s.keyMatrix := by
  obtain ⟨-, -, hinv⟩ := h
  rw [← determinant_keyMatrix] at hinv
  rw [← scaledAdjugate_keyMatrix]
  exact scaledAdjugate_mul hinv

/-! ### DET (R156) -/

theorem det_keyShape (h : u32 s.keyLen ≠ 4) : resultOf .det s = .error .invalidKeyShape := by
  rw [resultOf, detResult, buildKeyMatrix_of_ne h]

theorem det_ok (h : u32 s.keyLen = 4) : resultOf .det s = .ok (.regs
    [(.res0, word (keyDet s % 2 ^ 64 % 2 ^ 32)), (.res1, word (keyDet s % 2 ^ 64 / 2 ^ 32))]) := by
  rw [resultOf, detResult, buildKeyMatrix_of_eq h]
  rfl

theorem exec_of_res0_res1 {i : Instr} {lo hi : Word} (h : resultOf i s = .ok (.regs [(.res0, lo), (.res1, hi)])) :
    exec i s = .next { s with res0 := lo, res1 := hi, status := finished s .ok } := by
  rw [exec_eq_commit, h]
  rfl

/-- The two halves of a 64-bit two's complement value read back as the value. -/
theorem toInt_halves (t : Int) (hlo : -2 ^ 63 ≤ t) (hhi : t < 2 ^ 63) :
    (word (t % 2 ^ 64 / 2 ^ 32) ++ word (t % 2 ^ 64 % 2 ^ 32) : BitVec 64).toInt = t := by
  have hword : (word (t % 2 ^ 64 / 2 ^ 32) ++ word (t % 2 ^ 64 % 2 ^ 32) : BitVec 64) = BitVec.ofInt 64 t := by
    apply BitVec.eq_of_toNat_eq
    rw [toNat_append_eq_add, BitVec.toNat_ofInt, BitVec.toNat_ofInt, BitVec.toNat_ofInt]
    omega
  rw [hword, BitVec.toInt_ofInt_eq_self (by decide) hlo hhi]

/-! ### MATINV26 (R157) -/

theorem matinv26_keyShape (h : u32 s.keyLen ≠ 4) : resultOf .matinv26 s = .error .invalidKeyShape := by
  rw [resultOf, matinv26Result, buildKeyMatrix_of_ne h]

theorem matinv26_nonInvertible (hkey : u32 s.keyLen = 4) (h : Int.gcd (keyDet s % 26) 26 ≠ 1) :
    resultOf .matinv26 s = .error .nonInvertibleKey := by
  simp only [resultOf, matinv26Result, buildKeyMatrix_of_eq hkey, invertMatrix26_of_not_coprime (k := s.keyMatrix) h]

theorem matinv26_ok {di : Int} (hkey : u32 s.keyLen = 4)
    (h : invertMatrix26 s.keyMatrix = .ok ⟨keyInverse s di, keyDet s % 26, di⟩) :
    resultOf .matinv26 s = .ok (.regs
      [(.res0, word (s32 s.key3 * di % 26)), (.res1, word (-s32 s.key1 * di % 26)),
       (.res2, word (-s32 s.key2 * di % 26)), (.res3, word (s32 s.key0 * di % 26)),
       (.res4, word (keyDet s % 26)), (.res5, word di)]) := by
  simp only [resultOf, matinv26Result, buildKeyMatrix_of_eq hkey, h, keyInverse]

theorem exec_of_res0_to_res5 {i : Instr} {w0 w1 w2 w3 w4 w5 : Word} (h : resultOf i s = .ok (.regs
    [(.res0, w0), (.res1, w1), (.res2, w2), (.res3, w3), (.res4, w4), (.res5, w5)])) :
    exec i s = .next { s with
      res0 := w0, res1 := w1, res2 := w2, res3 := w3, res4 := w4, res5 := w5, status := finished s .ok } := by
  simp only [exec_eq_commit, h, commit_regs, setRegs_cons, setRegs_nil, setRes_eq0, setRes_eq1, setRes_eq2, setRes_eq3,
    setRes_eq4, setRes_eq5, complete, Status.completed, finished]

/-! ### The common end of HILL_ENC and HILL_DEC (R155, R158) -/

theorem hillApply_of_adjusted {m : Mat2} {dir : Direction} {c c' : List Int}
    (h : adjusted s.ctrl.oddpol s.ctrl.filler.toNat dir c c') :
    hillApply m dir c s = .ok (.buffer ((applyPairs m c').map word)) := by
  rw [hillApply, State.filler, oddAdjust_eq_ok_iff.mpr h]

theorem hillApply_of_reject {m : Mat2} {dir : Direction} {c : List Int} (hodd : c.length % 2 = 1)
    (hp : s.ctrl.oddpol = .reject) : hillApply m dir c s = .error .oddLength := by
  rw [hillApply, oddAdjust_of_reject hp hodd]

theorem length_le_of_buffer {i : Instr} {o : List Int} (h : resultOf i s = .ok (.buffer (o.map word)))
    (hp : s.ParamsLegal) : o.length ≤ s.params.bufDepth :=
  (List.length_map _).symm.trans_le (resultOf_buffer_fits i s _ hp h)

/-- With legal parameters every output fits, so the command leaves the state of `bufferDone`. -/
theorem exec_of_buffer_of_legal {i : Instr} {o : List Int} (h : resultOf i s = .ok (.buffer (o.map word)))
    (hp : s.ParamsLegal) (hmem : s.MemWf) : exec i s = .next (bufferDone s o) := by
  obtain ⟨-, hout⟩ := (memory_wf_iff _ _).mp hmem
  rw [exec_eq_commit, h, commit_buffer_of_fits o s ((length_le_of_buffer h hp).trans_eq hout.symm)]

/-- A command whose outcome is the common end leaves the product of the adjusted codes, wherever the policy has any. -/
theorem exec_of_hillApply {i : Instr} {m : Mat2} {dir : Direction} {c : List Int}
    (h : resultOf i s = hillApply m dir c s) (hp : s.ParamsLegal) (hmem : s.MemWf)
    (hpolicy : c.length % 2 = 0 ∨ s.ctrl.oddpol ≠ .reject) :
    ∃ c' o, adjusted s.ctrl.oddpol s.ctrl.filler.toNat dir c c' ∧ pairProduct m c' o ∧
      exec i s = .next (bufferDone s o) := by
  obtain ⟨c', hadj⟩ := exists_adjusted hpolicy
  exact ⟨c', applyPairs m c', hadj, pairProduct_applyPairs m c' (adjusted_length_even hadj),
    exec_of_buffer_of_legal (h.trans (hillApply_of_adjusted hadj)) hp hmem⟩

/-! ### HILL_ENC (R155) -/

theorem hillEnc_length (h : s.params.bufDepth < u32 s.inLen) : resultOf .hillEnc s = .error .length :=
  if_pos ((lengthBad_iff s).mpr h)

theorem hillEnc_keyShape (hlen : u32 s.inLen ≤ s.params.bufDepth) (h : u32 s.keyLen ≠ 4) :
    resultOf .hillEnc s = .error .invalidKeyShape := by
  rw [resultOf, hillEncResult, if_neg (not_lengthBad_of_le hlen), buildKeyMatrix_of_ne h]

theorem hillEnc_eq_hillApply (hlen : u32 s.inLen ≤ s.params.bufDepth) (hkey : u32 s.keyLen = 4) :
    resultOf .hillEnc s = hillApply s.keyMatrix .enc (lettersOf (input s)) s := by
  rw [resultOf, hillEncResult, if_neg (not_lengthBad_of_le hlen), buildKeyMatrix_of_eq hkey, textToCodes_inText]

/-! ### HILL_DEC (R158) -/

section HillDec
variable {src : Source}

theorem hillDec_length (h : s.params.bufDepth < u32 s.inLen) : resultOf (.hillDec src) s = .error .length :=
  if_pos ((lengthBad_iff s).mpr h)

theorem hillDec_keyShape (hlen : u32 s.inLen ≤ s.params.bufDepth) (h : u32 s.keyLen ≠ 4) :
    resultOf (.hillDec src) s = .error .invalidKeyShape := by
  rw [resultOf, hillDecResult, if_neg (not_lengthBad_of_le hlen), buildKeyMatrix_of_ne h]

theorem hillDec_nonInvertible (hlen : u32 s.inLen ≤ s.params.bufDepth) (hkey : u32 s.keyLen = 4)
    (h : Int.gcd (keyDet s % 26) 26 ≠ 1) : resultOf (.hillDec src) s = .error .nonInvertibleKey := by
  simp only [resultOf, hillDecResult, if_neg (not_lengthBad_of_le hlen), buildKeyMatrix_of_eq hkey,
    invertMatrix26_of_not_coprime (k := s.keyMatrix) h]

theorem hillDec_eq_hillApply {r : Inverse26} (hlen : u32 s.inLen ≤ s.params.bufDepth) (hkey : u32 s.keyLen = 4)
    (h : invertMatrix26 s.keyMatrix = .ok r) :
    resultOf (.hillDec src) s = hillApply r.inv .dec (cipherCodes src s) s := by
  simp only [resultOf, hillDecResult, if_neg (not_lengthBad_of_le hlen), buildKeyMatrix_of_eq hkey, h]

end HillDec

/-! ### Encryption and then decryption (R160) -/

/-- The table of R140 has the codes 0 to 25. -/
theorem tableCode_range {w : Word} {v : Int} (h : tableCode w = some v) : 0 ≤ v ∧ v < 26 := by
  simp only [tableCode] at h
  split_ifs at h <;> cases h <;> omega

/-- With a legal filler the adjusted codes are residues modulo 26. -/
theorem adjusted_lettersOf_range {ws : List Word} {p : OddPolicy} {f : Int} {dir : Direction} {c' : List Int}
    (h : adjusted p f dir (lettersOf ws) c') (h0 : 0 ≤ f) (hf : f < 26) : ∀ v ∈ c', 0 ≤ v ∧ v < 26 := by
  intro v hv
  rcases mem_of_adjusted h hv with hletter | rfl
  · obtain ⟨w, -, hw⟩ := List.mem_filterMap.mp hletter
    exact tableCode_range hw
  · exact ⟨h0, hf⟩

/-- The host's copy of R160: OUT_BUF to IN_BUF, and IN_LEN takes OUT_LEN. -/
def feedBack (t : State) : State := { t with inLen := t.outLen, mem := { t.mem with inBuf := t.mem.outBuf } }

theorem u32_word_natCast_of_lt {n : Nat} (h : n < 2 ^ 32) : u32 (word n) = n := by
  have hread := u32_word_of_lt n (by omega) (by omega)
  omega

theorem s32_word_of_lt (v : Int) (h0 : 0 ≤ v) (hlt : v < 2 ^ 31) : s32 (word v) = v :=
  BitVec.toInt_ofInt_eq_self (by decide) (by omega) hlt

/-- After the copy the input is the output. -/
theorem input_feedBack {o : List Int} (h : o.length < 2 ^ 32) : input (feedBack (bufferDone s o)) = o.map word := by
  have hlen : u32 (feedBack (bufferDone s o)).inLen = (o.map word).length := by
    rw [List.length_map]
    exact u32_word_natCast_of_lt h
  rw [input, hlen]
  exact List.take_left

/-- The codes read back are the output: its values are residues modulo 26, so their words lose nothing. -/
theorem cipherCodes_feedBack {o : List Int} (h : o.length < 2 ^ 32) (hrange : ∀ v ∈ o, 0 ≤ v ∧ v < 26) :
    cipherCodes .codes (feedBack (bufferDone s o)) = o := by
  calc cipherCodes .codes (feedBack (bufferDone s o)) = (o.map word).map s32 := congrArg _ (input_feedBack h)
    _ = o.map id := by
      rw [List.map_map]
      exact List.map_congr_left fun v hv =>
        s32_word_of_lt v (hrange v hv).1 ((hrange v hv).2.trans (by norm_num))
    _ = o := List.map_id o

/-- The copy keeps the form of the buffers: IN_BUF is OUT_BUF, whose length an output that fits leaves as it is. -/
theorem memWf_feedBack {o : List Int} (hmem : s.MemWf) (hfits : o.length ≤ s.params.bufDepth) :
    (feedBack (bufferDone s o)).MemWf := by
  obtain ⟨-, hout⟩ := (memory_wf_iff _ _).mp hmem
  have hlen : (bufferDone s o).mem.outBuf.length = s.params.bufDepth := by
    simp only [bufferDone, List.length_append, List.length_map, List.length_drop]
    omega
  exact (memory_wf_iff _ _).mpr ⟨hlen, hlen⟩

/-- Decryption of an output of even length adjusts nothing, and the key registers are those of the encryption. -/
theorem hillDec_feedBack {o : List Int} {di : Int} (hfits : o.length ≤ s.params.bufDepth)
    (hdepth : s.params.bufDepth ≤ 256) (hkey : u32 s.keyLen = 4)
    (hinv : invertMatrix26 s.keyMatrix = .ok ⟨keyInverse s di, keyDet s % 26, di⟩) (heven : o.length % 2 = 0)
    (hrange : ∀ v ∈ o, 0 ≤ v ∧ v < 26) :
    resultOf (.hillDec .codes) (feedBack (bufferDone s o)) =
      .ok (.buffer ((applyPairs (keyInverse s di) o).map word)) := by
  have hinLen : u32 (word o.length) ≤ s.params.bufDepth := (u32_word_natCast_le o.length).trans hfits
  rw [hillDec_eq_hillApply (s := feedBack (bufferDone s o)) hinLen hkey hinv,
    cipherCodes_feedBack (by omega) hrange, hillApply_of_adjusted ((adjusted_iff_of_even heven).mpr rfl)]

/-- The inverse key undoes the key on a sequence of residues. -/
theorem applyPairs_keyInverse_keyMatrix {di : Int} {c : List Int} (hdi : isDetInverse s di) (heven : c.length % 2 = 0)
    (hrange : ∀ v ∈ c, 0 ≤ v ∧ v < 26) : applyPairs (keyInverse s di) (applyPairs s.keyMatrix c) = c := by
  calc applyPairs (keyInverse s di) (applyPairs s.keyMatrix c) = c.map (· % 26) :=
        applyPairs_leftInverse (keyInverse_mul hdi) c heven
    _ = c.map id := List.map_congr_left fun v hv => Int.emod_eq_of_lt (hrange v hv).1 (hrange v hv).2
    _ = c := List.map_id c

theorem bufferDone_outBuf_take (o : List Int) : (bufferDone s o).mem.outBuf.take o.length = o.map word :=
  List.take_left' (List.length_map _)

end Commands

/-! ### The obligations -/

/-- Settles O18: the check order, then the common end of the Hill commands. -/
theorem hillEncFollowsItsRule : Obligations.HillEncFollowsItsRule := by
  rintro s c rfl
  refine ⟨fun hlong => failsWith_of_error (hillEnc_length hlong),
    fun hlen hkey => failsWith_of_error (hillEnc_keyShape hlen hkey), fun hlen hkey hodd hp => ?_,
    fun hp hmem hlen hkey hpolicy => ?_⟩
  · exact failsWith_of_error ((hillEnc_eq_hillApply hlen hkey).trans (hillApply_of_reject hodd hp))
  · exact exec_of_hillApply (hillEnc_eq_hillApply hlen hkey) hp hmem hpolicy

/-- Settles O19: the determinant fits 64 bits by its bounds, so its two halves hold it exactly. -/
theorem detFollowsItsRule : Obligations.DetFollowsItsRule := by
  intro s
  refine ⟨fun hkey => failsWith_of_error (det_keyShape hkey), fun hkey => ?_⟩
  obtain ⟨-, hlo, hhi⟩ := determinantStaysInBounds s
  exact ⟨_, _, toInt_halves (keyDet s) (by omega) (by omega), exec_of_res0_res1 (det_ok hkey)⟩

/-- Settles O20. -/
theorem matinv26FollowsItsRule : Obligations.Matinv26FollowsItsRule := by
  intro s
  refine ⟨fun hkey => failsWith_of_error (matinv26_keyShape hkey),
    fun hkey hgcd => failsWith_of_error (matinv26_nonInvertible hkey hgcd), fun hkey hgcd => ?_⟩
  obtain ⟨di, hdi, hinv⟩ := invertMatrix26_keyMatrix hgcd
  exact ⟨di, hdi, exec_of_res0_to_res5 (matinv26_ok hkey hinv)⟩

/-- Settles O21: the check order, then the common end of the Hill commands with the inverse key. -/
theorem hillDecFollowsItsRule : Obligations.HillDecFollowsItsRule := by
  intro s src c hc
  obtain rfl : c = cipherCodes src s := by
    cases src with
    | text => exact hc.trans (textToCodes_inText s).symm
    | codes => exact hc
  refine ⟨fun hlong => failsWith_of_error (hillDec_length hlong),
    fun hlen hkey => failsWith_of_error (hillDec_keyShape hlen hkey),
    fun hlen hkey hgcd => failsWith_of_error (hillDec_nonInvertible hlen hkey hgcd),
    fun hlen hkey hgcd hodd hp => ?_, fun hp hmem hlen hkey hgcd hpolicy => ?_⟩ <;>
    obtain ⟨di, hdi, hinv⟩ := invertMatrix26_keyMatrix hgcd
  · exact failsWith_of_error ((hillDec_eq_hillApply hlen hkey hinv).trans (hillApply_of_reject hodd hp))
  · obtain ⟨c', o, hadj, hprod, hexec⟩ := exec_of_hillApply (hillDec_eq_hillApply hlen hkey hinv) hp hmem hpolicy
    exact ⟨di, c', o, hdi, hadj, hprod, hexec⟩

/-- Settles O31: the output has even length and is read back as it is, so decryption adjusts nothing and its matrix
undoes the key; the adjusted codes are their own residues. -/
theorem hillRoundTripGivesTheAdjustedCodes : Obligations.HillRoundTripGivesTheAdjustedCodes := by
  intro s c' hp hmem hfiller hlen hkey hgcd hadj
  obtain ⟨di, hdi, hinv⟩ := invertMatrix26_keyMatrix hgcd
  obtain ⟨-, -, -, hdepth⟩ := (params_wellFormed_iff _).mp hp
  have heven := adjusted_length_even hadj
  have hrange := adjusted_lettersOf_range hadj (by omega) (by omega)
  have holen : (applyPairs s.keyMatrix c').length = c'.length := (pairProduct_applyPairs s.keyMatrix c' heven).1
  have henc : resultOf .hillEnc s = .ok (.buffer ((applyPairs s.keyMatrix c').map word)) :=
    (hillEnc_eq_hillApply hlen hkey).trans (hillApply_of_adjusted hadj)
  have hfits := length_le_of_buffer henc hp
  have hdec := hillDec_feedBack hfits hdepth hkey hinv (holen ▸ heven) (applyPairs_range s.keyMatrix c')
  rw [applyPairs_keyInverse_keyMatrix hdi heven hrange] at hdec
  exact ⟨_, _, exec_of_buffer_of_legal henc hp hmem, rfl, exec_of_buffer_of_legal hdec hp (memWf_feedBack hmem hfits),
    rfl, u32_word_natCast_of_lt (by omega), bufferDone_outBuf_take c'⟩

end Sys2Proof.Machine

/-!
Toy RSA (43_rsa.md): key generation by its outcomes (R180), the commands RSA_KEYGEN (R181), RSA_ENC (R182) and RSA_DEC
(R183), and the round trip for distinct primes (R184).
-/

namespace Sys2Proof.Machine

/-! ### The inverse of the exponent (R120) -/

/-- The inverse of R120, of the exponent itself and not of its residue. -/
theorem modInverseFn_mul_of_coprime (a m : Int) (hm : 2 ≤ m) (h : Int.gcd (a % m) m = 1) :
    ∃ b, modInverseFn a m = some b ∧ 1 ≤ b ∧ b < m ∧ a * b % m = 1 := by
  obtain ⟨b, hb, h1, hlt, hinv⟩ := modInverseFn_of_coprime a m hm h
  have hmod : a * b ≡ a % m * b [ZMOD m] := (Int.mod_modEq a m).symm.mul_right b
  exact ⟨b, hb, h1, hlt, Eq.trans hmod hinv⟩

/-- What `modInverseFn` answers for m ≥ 2 is an inverse: it answers nothing where there is none. -/
theorem of_modInverseFn_eq_some {a m b : Int} (hm : 2 ≤ m) (h : modInverseFn a m = some b) :
    1 ≤ b ∧ a * b % m = 1 := by
  by_cases hgcd : Int.gcd (a % m) m = 1
  · obtain ⟨b', hb', h1, -, hinv⟩ := modInverseFn_mul_of_coprime a m hm hgcd
    obtain rfl : b' = b := Option.some.inj (hb'.symm.trans h)
    exact ⟨h1, hinv⟩
  · rw [modInverseFn_of_not_coprime a m hgcd] at h
    cases h

/-! ### Key generation (R180) -/

section KeyGeneration
variable {p q e d : Int}

theorem generateKeyPairFn_range (h : ¬ INT32 (p * q) ∨ ¬ INT32 ((p - 1) * (q - 1))) :
    generateKeyPairFn p q e = .error .range := if_pos h

theorem generateKeyPairFn_badModulus (hn : INT32 (p * q)) (hphi : INT32 ((p - 1) * (q - 1)))
    (h : (p - 1) * (q - 1) < 1) : generateKeyPairFn p q e = .error .badModulus := by
  rw [generateKeyPairFn, if_neg (by tauto), if_pos h]

theorem generateKeyPairFn_nonInvertible (hn : INT32 (p * q)) (hphi : INT32 ((p - 1) * (q - 1)))
    (hpos : 1 ≤ (p - 1) * (q - 1)) (h : modInverseFn e ((p - 1) * (q - 1)) = none) :
    generateKeyPairFn p q e = .error .nonInvertibleExponent := by
  rw [generateKeyPairFn, if_neg (by tauto), if_neg (by omega), h]

theorem generateKeyPairFn_ok (hn : INT32 (p * q)) (hphi : INT32 ((p - 1) * (q - 1)))
    (hpos : 1 ≤ (p - 1) * (q - 1)) (h : modInverseFn e ((p - 1) * (q - 1)) = some d) :
    generateKeyPairFn p q e = .ok ⟨p * q, d, (p - 1) * (q - 1)⟩ := by
  rw [generateKeyPairFn, if_neg (by tauto), if_neg (by omega), h]

/-- A key pair comes only from a positive phi and an invertible exponent. -/
theorem of_generateKeyPairFn_eq_ok {k : KeyPair} (h : generateKeyPairFn p q e = .ok k) :
    k.n = p * q ∧ modInverseFn e ((p - 1) * (q - 1)) = some k.d := by
  simp only [generateKeyPairFn] at h
  split_ifs at h
  split at h
  · cases h
  · next hd =>
    cases h
    exact ⟨rfl, hd⟩

end KeyGeneration

/-! ### RSA_KEYGEN (R181) -/

section Keygen
variable {s : State}

theorem rsaKeygen_error {c : CmdError} (h : generateKeyPairFn (s32 s.op0) (s32 s.op1) (s32 s.op2) = .error c) :
    resultOf .rsaKeygen s = .error c := by
  rw [resultOf, rsaKeygenResult, h]

theorem rsaKeygen_ok {k : KeyPair} (h : generateKeyPairFn (s32 s.op0) (s32 s.op1) (s32 s.op2) = .ok k) :
    resultOf .rsaKeygen s = .ok (.regs [(.res0, word k.n), (.res1, word k.d), (.res2, word k.phi)]) := by
  rw [resultOf, rsaKeygenResult, h]

theorem exec_of_res0_to_res2 {i : Instr} {w0 w1 w2 : Word}
    (h : resultOf i s = .ok (.regs [(.res0, w0), (.res1, w1), (.res2, w2)])) :
    exec i s = .next { s with res0 := w0, res1 := w1, res2 := w2, status := finished s .ok } := by
  rw [exec_eq_commit, h]
  rfl

end Keygen

/-- Settles O22: the outcomes of key generation in their order; phi = 1 has the inverse 0. -/
theorem rsaKeygenFollowsItsRule : Obligations.RsaKeygenFollowsItsRule := by
  rintro s p q e n phi rfl rfl rfl rfl rfl
  refine ⟨fun h => failsWith_of_error (rsaKeygen_error (generateKeyPairFn_range h)),
    fun hn hphi h => failsWith_of_error (rsaKeygen_error (generateKeyPairFn_badModulus hn hphi h)),
    fun hn hphi hpos hgcd => ?_, fun hn hone => ?_, fun hn hphi htwo hgcd => ?_⟩
  · have hnone := modInverseFn_of_not_coprime _ _ hgcd
    exact failsWith_of_error (rsaKeygen_error (generateKeyPairFn_nonInvertible hn hphi hpos hnone))
  · have hzero : modInverseFn (s32 s.op2) ((s32 s.op0 - 1) * (s32 s.op1 - 1)) = some 0 := by
      rw [hone]
      exact modInverseFn_one_right _
    have hok := rsaKeygen_ok (generateKeyPairFn_ok hn (by rw [hone]; decide) hone.ge hzero)
    rw [hone] at hok
    exact exec_of_res0_to_res2 hok
  · obtain ⟨d, hd, h1, hlt, hinv⟩ := modInverseFn_mul_of_coprime _ _ htwo hgcd
    exact ⟨d, h1, hlt, hinv, exec_of_res0_to_res2 (rsaKeygen_ok (generateKeyPairFn_ok hn hphi (by omega) hd))⟩

/-! ### RSA_ENC and RSA_DEC (R182, R183) -/

section Apply
variable {s : State}

/-- The two commands have one outcome. -/
theorem resultOf_eq_rsaApply {i : Instr} (h : i = .rsaEnc ∨ i = .rsaDec) : resultOf i s = rsaApply s := by
  rcases h with rfl | rfl <;> rfl

theorem rsaApply_length (h : s.params.bufDepth < u32 s.inLen) : rsaApply s = .error .length :=
  if_pos ((lengthBad_iff s).mpr h)

theorem rsaApply_badModulus (hlen : u32 s.inLen ≤ s.params.bufDepth) (hn : s32 s.op1 ≤ 0) :
    rsaApply s = .error .badModulus := by
  rw [rsaApply, if_neg (not_lengthBad_of_le hlen), if_pos hn]

theorem rsaApply_negativeExponent (hlen : u32 s.inLen ≤ s.params.bufDepth) (hn : 1 ≤ s32 s.op1) (he : s32 s.op0 < 0) :
    rsaApply s = .error .negativeExponent := by
  rw [rsaApply, if_neg (not_lengthBad_of_le hlen), if_neg (by omega), if_pos he]

theorem rsaApply_powers (hlen : u32 s.inLen ≤ s.params.bufDepth) (hn : 1 ≤ s32 s.op1) (he : 0 ≤ s32 s.op0) :
    rsaApply s = .ok (.buffer
      (((input s).map fun w => (s32 w % s32 s.op1) ^ (s32 s.op0).toNat % s32 s.op1).map word)) := by
  rw [rsaApply, if_neg (not_lengthBad_of_le hlen), if_neg (by omega), if_neg (by omega), State.inCodes, List.map_map,
    List.map_map]
  exact congrArg (fun ws => Except.ok (Writes.buffer ws))
    (List.map_congr_left fun w _ => congrArg word (modPowFn_eq (s32 w) _ _ hn))

end Apply

/-- Settles O23: the output has one power for each entry of the input, so it fits. -/
theorem rsaEncAndDecFollowTheirRules : Obligations.RsaEncAndDecFollowTheirRules := by
  rintro i s e n hi rfl rfl
  have hres := resultOf_eq_rsaApply (s := s) hi
  exact ⟨fun hlong => failsWith_of_error (hres.trans (rsaApply_length hlong)),
    fun hlen hn => failsWith_of_error (hres.trans (rsaApply_badModulus hlen hn)),
    fun hlen hn he => failsWith_of_error (hres.trans (rsaApply_negativeExponent hlen hn he)),
    fun hmem hlen hn he => exec_of_buffer (hres.trans (rsaApply_powers hlen hn he)) hmem (List.length_map _).le⟩

/-! ### The round trip (R184) -/

/-- Fermat's little theorem for every base: an exponent (p - 1)·j + 1 gives the base back modulo the prime p. -/
theorem pow_mul_add_one_modEq {p : Nat} (hp : p.Prime) (v : Int) (j : Nat) : v ^ ((p - 1) * j + 1) ≡ v [ZMOD p] := by
  have := Fact.mk hp
  rw [← ZMod.intCast_eq_intCast_iff, Int.cast_pow]
  by_cases hv : (v : ZMod p) = 0
  · rw [hv, zero_pow (Nat.succ_ne_zero _)]
  · rw [pow_succ, pow_mul, ZMod.pow_card_sub_one_eq_one hv, one_pow, one_mul]

/-- For distinct primes an exponent (p - 1)(q - 1)·j + 1 gives the base back modulo p·q, by the two primes. -/
theorem pow_totient_mul_add_one_modEq {p q : Nat} (hp : p.Prime) (hq : q.Prime) (hne : p ≠ q) (v : Int) (j : Nat) :
    v ^ ((p - 1) * (q - 1) * j + 1) ≡ v [ZMOD p * q] := by
  have hcop : (p : Int).natAbs.Coprime (q : Int).natAbs := (Nat.coprime_primes hp hq).mpr hne
  refine (Int.modEq_and_modEq_iff_modEq_mul hcop).mp ⟨?_, ?_⟩
  · rw [mul_assoc]
    exact pow_mul_add_one_modEq hp v _
  · rw [mul_comm (p - 1), mul_assoc]
    exact pow_mul_add_one_modEq hq v _

/-- A power of a power, each reduced, is the power by the product of the exponents, for the base is reduced first. -/
theorem modPowFn_modPowFn (v e d n : Int) (hn : 1 ≤ n) :
    modPowFn (modPowFn v e n) d n = v ^ (e.toNat * d.toNat) % n := by
  rw [modPowFn_eq _ _ _ hn, modPowFn_eq _ _ _ hn, Int.emod_emod_of_dvd _ dvd_rfl]
  calc ((v % n) ^ e.toNat % n) ^ d.toNat ≡ ((v % n) ^ e.toNat) ^ d.toNat [ZMOD n] := (Int.mod_modEq _ n).pow _
    _ ≡ (v ^ e.toNat) ^ d.toNat [ZMOD n] := ((Int.mod_modEq v n).pow _).pow _
    _ = v ^ (e.toNat * d.toNat) := (pow_mul v _ _).symm

/-- Distinct primes have phi ≥ 2, so the inverse modulo phi is a proper one. -/
theorem two_le_phi {p q : Nat} (hp : p.Prime) (hq : q.Prime) (hne : p ≠ q) : 2 ≤ (p - 1) * (q - 1) := by
  have hp2 := hp.two_le
  have hq2 := hq.two_le
  rcases lt_or_gt_of_ne hne with h | h
  · calc 2 = 1 * 2 := rfl
      _ ≤ (p - 1) * (q - 1) := Nat.mul_le_mul (by omega) (by omega)
  · calc 2 = 2 * 1 := rfl
      _ ≤ (p - 1) * (q - 1) := Nat.mul_le_mul (by omega) (by omega)

/-- The exponents of a key pair multiply to one more than a multiple of phi. -/
theorem exists_toNat_mul_toNat_eq {e d : Int} {phi : Nat} (he : 0 ≤ e) (hd : 0 ≤ d) (h : e * d % phi = 1) :
    ∃ j, e.toNat * d.toNat = phi * j + 1 := by
  refine ⟨e.toNat * d.toNat / phi, ?_⟩
  have hmod : e.toNat * d.toNat % phi = 1 := by
    zify
    rwa [Int.toNat_of_nonneg he, Int.toNat_of_nonneg hd]
  rw [← hmod, Nat.div_add_mod]

/-- The first part of R184: decryption undoes encryption on the whole of [0, n). -/
theorem modPowFn_roundTrip {p q : Nat} {e v : Int} {k : KeyPair} (hp : p.Prime) (hq : q.Prime) (hne : p ≠ q)
    (he : 0 ≤ e) (hkey : generateKeyPairFn p q e = .ok k) (hv : 0 ≤ v) (hlt : v < k.n) :
    modPowFn (modPowFn v e k.n) k.d k.n = v := by
  obtain ⟨hn, hinverse⟩ := of_generateKeyPairFn_eq_ok hkey
  have hphi : ((p : Int) - 1) * (q - 1) = ((p - 1) * (q - 1) : Nat) := by
    rw [Nat.cast_mul, Nat.cast_pred hp.pos, Nat.cast_pred hq.pos]
  rw [hphi] at hinverse
  obtain ⟨hd, hinv⟩ := of_modInverseFn_eq_some (by exact_mod_cast two_le_phi hp hq hne) hinverse
  obtain ⟨j, hj⟩ := exists_toNat_mul_toNat_eq he (by omega) hinv
  calc modPowFn (modPowFn v e k.n) k.d k.n = v ^ ((p - 1) * (q - 1) * j + 1) % k.n := by
        rw [modPowFn_modPowFn _ _ _ _ (by omega), hj]
    _ = v % k.n := by
        rw [hn]
        exact pow_totient_mul_add_one_modEq hp hq hne v j
    _ = v := Int.emod_eq_of_lt hv hlt

/-- Settles O33: the round trip for distinct primes, and the two keys of R184 where it fails, p = q and p = 4. -/
theorem rsaRoundTripForDistinctPrimes : Obligations.RsaRoundTripForDistinctPrimes :=
  ⟨fun _ _ _ _ _ hp hq hne he hkey hv hlt => modPowFn_roundTrip hp hq hne he hkey hv hlt, by decide, by decide⟩

end Sys2Proof.Machine

/-!
Errors (60_exceptions.md): the codes of the table (R201) as STATUS shows them (R212), and the completion of an illegal
command word (R211).
-/

namespace Sys2Proof.Machine

/-! ### The codes (R201, R212) -/

theorem cmdError_code_le (e : CmdError) : e.code.toNat ≤ 0x0A := by
  cases e <;> decide

theorem completion_code_le : ∀ c : Completion, c.code.toNat ≤ 0x0A
  | .ok    => Nat.zero_le _
  | .err e => cmdError_code_le e

/-- Bits 15:8 of STATUS are the code of ERR (R28). -/
theorem status_toWord_err (t : Status) : t.toWord.toNat / 2 ^ 8 % 2 ^ 8 = t.err.code.toNat := by
  have hbusy := t.busy.toNat_le
  have hdone := t.done.toNat_le
  have hwerr := t.werr.toNat_le
  rw [status_toWord_toNat]
  omega

/-- Settles O52: the codes by the table, and the bound from the field of STATUS that shows one. -/
theorem errorCodesAreTheTable : Obligations.ErrorCodesAreTheTable :=
  ⟨rfl, rfl, rfl, rfl, rfl, rfl, rfl, rfl, rfl, rfl, rfl,
    fun s => (status_toWord_err s.status).trans_le (completion_code_le s.status.err)⟩

/-! ### The illegal command word (R96, R211) -/

/-- Of the three things the engine's turn can do, a busy, released engine with no command to run does the last. -/
theorem engineTurn_of_illegal (s : State) (hbusy : s.status.busy = true) (hr : s.resetAsserted = false)
    (hd : ∀ i, decode s.cmd ≠ .ok i) : engineTurn s = .next { s with status := finished s (.err .illegalCmd) } := by
  rcases engineTurn_cases s with ⟨hoff, -⟩ | ⟨-, i, hi, -⟩ | ⟨-, -, hturn⟩
  · simp [State.engineEnabled, hbusy, hr] at hoff
  · exact absurd hi (hd i)
  · rw [hturn, commit_error]

/-- Settles O9: in both forms the engine moves, on the state without its turn. -/
theorem illegalWordCompletesWithIllegalCmd : Obligations.IllegalWordCompletesWithIllegalCmd := by
  intro s hbusy hr hd
  refine ⟨fun hnil => ?_, fun ts hcons => ?_⟩
  · rw [step, nextMove_nil s hnil]
    exact engineTurn_of_illegal s hbusy hr hd
  · rw [step, nextMove_cons s .engine ts hcons]
    exact engineTurn_of_illegal { s with turns := ts } hbusy hr hd

end Sys2Proof.Machine

/-!
Reset and hazards (70_reset_and_hazards.md): what asserting and releasing reset do (R230, R232), the accesses that are
not served, and where a step stops.
-/

namespace Sys2Proof.Machine

/-! ### Reset (R230, R232) -/

/-- Settles O53: every register takes the value it has in `State.reset`, whatever the parameters are. -/
theorem resetAssertAndReleaseHaveTheirEffect : Obligations.ResetAssertAndReleaseHaveTheirEffect := by
  obtain ⟨step_of_turn, -⟩ := stepMakesTheNextMove
  refine ⟨fun s ts hturn => ?_, fun s ts hturn => step_of_turn s .resetRelease ts hturn⟩
  obtain ⟨hctrl, hstatus, -⟩ := resetStateHasTheStatedValues
  obtain ⟨hparams, -, -, hout, hasserted, hmem, hhosts, hturns, hreply⟩ := assertReset_eq { s with turns := ts }
  exact ⟨assertReset { s with turns := ts }, step_of_turn s .resetAssert ts hturn, hparams,
    hctrl, hstatus, rfl,
    rfl, hout, rfl, rfl, rfl, rfl,
    rfl, rfl, rfl, rfl,
    rfl, rfl, rfl, rfl, rfl, rfl,
    rfl, rfl, rfl,
    hmem, hasserted,
    hreply, hhosts, hturns⟩

/-! ### Where an access stops (R64, R232) -/

theorem inWindow_eq_false_iff (s : State) (addr : Nat) :
    s.inWindow addr = false ↔ addr < s.params.base ∨ s.params.base + 4096 ≤ addr := by
  rw [Bool.eq_false_iff, ne_eq, inWindow_iff]
  omega

/-- An access faults exactly outside the window. -/
theorem access_eq_fault_iff (a : Access) (s : State) (f : Fault) :
    access a s = .fault f ↔ s.inWindow a.addr = false ∧ f = .outsideWindow a.addr := by
  rcases access_cases a s with ⟨hwin, e⟩ | ⟨hwin, -, e⟩ | ⟨hwin, -, -, e⟩ | ⟨hwin, -, -, e⟩ <;>
    simp [e, hwin, eq_comm]

/-- An access is refused exactly in the window while reset is asserted. -/
theorem access_eq_refused_iff (a : Access) (s : State) (r : Refusal) :
    access a s = .refused r ↔
      s.inWindow a.addr = true ∧ s.resetAsserted = true ∧ r = .accessDuringReset a.addr := by
  rcases access_cases a s with ⟨hwin, e⟩ | ⟨hwin, hreset, e⟩ | ⟨-, hreset, -, e⟩ | ⟨-, hreset, -, e⟩
  · simp [e, hwin]
  · simp [e, hwin, hreset, eq_comm]
  · simp [e, hreset]
  · simp [e, hreset]

/-- Settles O36. -/
theorem accessesThatAreNotServed : Obligations.AccessesThatAreNotServed := fun s a =>
  ⟨fun hout => (access_eq_fault_iff a s _).mpr ⟨(inWindow_eq_false_iff s a.addr).mpr hout, rfl⟩,
    fun hlo hhi hreset => (access_eq_refused_iff a s _).mpr ⟨(inWindow_iff s a.addr).mpr ⟨hlo, hhi⟩, hreset, rfl⟩⟩

/-! ### Where a step stops -/

/-- An access of a host stops where the access does. -/
theorem hostAccess_eq_fault_iff (a : Access) (g : State → State) (s : State) (f : Fault) :
    hostAccess a g s = .fault f ↔ access a s = .fault f := by
  rw [hostAccess]
  cases access a s <;> simp

theorem hostAccess_eq_refused_iff (a : Access) (g : State → State) (s : State) (r : Refusal) :
    hostAccess a g s = .refused r ↔ access a s = .refused r := by
  rw [hostAccess]
  cases access a s <;> simp

/-- A raw access is the access of a host that does nothing with the answer. -/
theorem hostAccess_id (a : Access) (s : State) : hostAccess a id s = access a s := by
  rw [hostAccess]
  cases access a s <;> rfl

/-- The engine's move never stops: it does nothing, or commits one outcome (R100, R200). -/
theorem engineTurn_next (s : State) : ∃ t, engineTurn s = .next t := by
  rcases engineTurn_cases s with ⟨-, e⟩ | ⟨-, i, -, e⟩ | ⟨-, -, e⟩
  · exact ⟨s, e⟩
  · exact ⟨_, e.trans (exec_eq_commit i s)⟩
  · exact ⟨_, e⟩

/-- Every step, also one that stops: it answers a next state, or what its access answers, or is refused at a missing
label. `u` is the state without the turn taken. -/
theorem step_answers (s : State) : ∃ u : State, (∃ ts, u = { s with turns := ts }) ∧
    ((∃ t, step s = .next t) ∨
     (∃ a g, nextAccess s = some a ∧ step s = hostAccess a g u) ∨
     (∃ k h l, (nextMove s).1 = .host k ∧ s.hosts[k]? = some h ∧ step s = .refused (.noSuchLabel l) ∧
       HostLine.label l ∉ h.prog)) := by
  obtain ⟨ts, hu⟩ := nextMove_state s
  refine ⟨_, ⟨ts, rfl⟩, ?_⟩
  rw [step, hu]
  cases hm : (nextMove s).1 with
  | engine => exact .inl (engineTurn_next _)
  | resetAssert => exact .inl ⟨_, rfl⟩
  | resetRelease => exact .inl ⟨_, rfl⟩
  | access a => exact .inr (.inl ⟨a, id, by rw [nextAccess, hm], (hostAccess_id a _).symm⟩)
  | host k =>
    have hk : nextAccess s = hostAccessOf k { s with turns := ts } := by
      rw [nextAccess, hm]
      rfl
    rcases hostTurn_cases k { s with turns := ts } with ⟨-, ⟨hs, e⟩ | ⟨h, l, hh, e, hl⟩⟩ | ⟨a, g, ha, e, -⟩
    · exact .inl ⟨_, e⟩
    · exact .inr (.inr ⟨k, h, l, rfl, hh, e, hl⟩)
    · exact .inr (.inl ⟨a, g, hk.trans ha, e⟩)

/-- Settles O58: an access stops outside the window or during reset, and both are the same without the turn taken. -/
theorem stepsStopOnlyAtAccessesAndMissingLabels : Obligations.StepsStopOnlyAtAccessesAndMissingLabels := by
  intro s
  obtain ⟨u, ⟨ts, rfl⟩, ⟨t, e⟩ | ⟨a, g, ha, e⟩ | ⟨k, h, l, hmove, hh, e, hl⟩⟩ := step_answers s <;> rw [e]
  · exact ⟨nofun, nofun⟩
  · refine ⟨fun f hf => ?_, fun r hr => ?_⟩
    · rw [hostAccess_eq_fault_iff, access_eq_fault_iff, inWindow_eq_false_iff] at hf
      obtain ⟨hout, hf⟩ := hf
      exact ⟨a, ha, hf, hout⟩
    · rw [hostAccess_eq_refused_iff, access_eq_refused_iff] at hr
      obtain ⟨-, hreset, hr⟩ := hr
      exact .inl ⟨a, ha, hr, hreset⟩
  · refine ⟨nofun, fun r hr => ?_⟩
    exact .inr ⟨k, h, l, hmove, hh, (Host.Outcome.refused.inj hr).symm, hl⟩

end Sys2Proof.Machine
